-- ==== Sys2Proof/Config.lean ====
section
/-! DEFINITION. What is fixed for a run and is no state of the block (10_state.md R35): the timestamp width,
the tolerance bands, the named parameters of 93_implementation_defined.md, and the one free value, the order of
two requests of the same cycle. -/
namespace Sys2Proof.Config

/-- `W_T`, the width of every timestamp and duration (00_scope.md R5: 32, any width of at least 14 is allowed).
The operation word, the ports and the timestamp registers take their width from this one definition. -/
abbrev tsWidth : Nat := 32

/-- R5's constraint on `W_T`: 9500, the largest band limit, must fit. -/
theorem tsWidth_legal : 14 ≤ tsWidth := by decide

/-- The twelve tolerance-band limits of R6, in microseconds. -/
structure Bands where
  startLo : Nat
  startHi : Nat
  markLo  : Nat
  markHi  : Nat
  preLo   : Nat
  preHi   : Nat
  repLo   : Nat
  repHi   : Nat
  zeroLo  : Nat
  zeroHi  : Nat
  oneLo   : Nat
  oneHi   : Nat
  deriving DecidableEq, Repr

/-- The normative values of R6. -/
def Bands.source : Bands where
  startLo := 8500
  startHi := 9500
  markLo  := 520
  markHi  := 700
  preLo   := 4800
  preHi   := 5300
  repLo   := 2800
  repHi   := 3300
  zeroLo  := 900
  zeroHi  := 1300
  oneLo   := 2000
  oneHi   := 2500

/-- `preamble_gapother` (93_implementation_defined.md U2): what GapOther does in PreambleWait. -/
inductive PreambleGapOther where
  /-- R85: nothing changes. The default. -/
  | noOp
  /-- The other answer to the source's open question: Error, as in Active. -/
  | error
  deriving DecidableEq, Repr

/-- `pending_policy` (93_implementation_defined.md U3): when `pending` is cleared and when TAKE_CODE returns a code. -/
inductive PendingPolicy where
  /-- R29: every entry to Error and to Repeat clears `pending`. The default. -/
  | clearOnErrorAndRepeat
  /-- D7 (a): of the edge rules, only PulseMalformed clears `pending`. -/
  | clearOnMalformedOnly
  /-- D7 (b): TAKE_CODE returns a code only while `st = Complete`. -/
  | takeOnlyInComplete
  deriving DecidableEq, Repr

/-- Everything a model built from the spec takes as an argument, but for the width (`tsWidth`) and the order
of simultaneous requests (`edgeFirst`): U2, U3, U4 and U7 of 93_implementation_defined.md. -/
structure Params where
  bands            : Bands
  preambleGapOther : PreambleGapOther
  pendingPolicy    : PendingPolicy
  /-- The reset value of `lastFall` in microseconds (U7). -/
  resetLastFall    : Nat
  /-- The reset value of `lastRise` in microseconds (U7). -/
  resetLastRise    : Nat
  deriving DecidableEq, Repr

/-- The parameter values the numbered rules state (R6, R85, R29, R34). `exec` and `step` run with these. -/
def params : Params where
  bands            := Bands.source
  preambleGapOther := .noOp
  pendingPolicy    := .clearOnErrorAndRepeat
  resetLastFall    := 0
  resetLastRise    := 0

/-- `N_BITS`, the number of data bits of a frame (R7). -/
abbrev nBits : Nat := 32

/-- `VALID_MASK` (R7). -/
abbrev validMask : BitVec 32 := 0x00FF00FF

/-- `simultaneous_order` (92_eei_decisions.md D11, 20_memory.md R47): in the n-th cycle that carries an edge
request AND a host request, is the edge performed first? A FREE VALUE: nothing is known of it, so whatever is
proved holds for both orders. It is applied to the counter `draws` of the state. -/
opaque edgeFirst : Nat → Bool

end Sys2Proof.Config
end

