-- ==== Sys2Proof/Word.lean ====
section
/-! DEFINITION. The widths of the block's values (00_scope.md R5, R7; 30_encoding.md R52). -/
namespace Sys2Proof

/-- A `W_T`-bit timestamp, in microseconds (R5). -/
abbrev Timestamp := BitVec Config.tsWidth

/-- A 32-bit remote-control code (R7). -/
abbrev Code := BitVec 32

/-- The `OP` field of an operation word (R52). -/
abbrev Opcode := BitVec 4

/-- An operation word: `OP` in the top four bits, `T` in the `W_T` bits below (R52). -/
abbrev OpWord := BitVec (4 + Config.tsWidth)

end Sys2Proof
end

