-- ==== Sys2Proof/Syntax.lean ====
section
/-! DEFINITION. The operations of the block (30_encoding.md R53), the two fields of an operation word (R52) and
the input ports of one clock cycle (R50). -/
namespace Sys2Proof

/-- The six operations of R53, one constructor per row of spec/opcode_table.json. -/
inductive Instr where
  /-- `NOP`, the empty cycle (43_polling_facade.md R100). -/
  | nop
  /-- `EDGE_FALL T` (40_edge_classifier.md R65). -/
  | edgeFall (t : Timestamp)
  /-- `EDGE_RISE T` (40_edge_classifier.md R66). -/
  | edgeRise (t : Timestamp)
  /-- `INIT` (43_polling_facade.md R101). -/
  | init
  /-- `GET_STATE` (43_polling_facade.md R102). -/
  | getState
  /-- `TAKE_CODE` (43_polling_facade.md R103). -/
  | takeCode
  deriving DecidableEq, Repr

/-- The two fields of an operation word, not yet checked (R52). -/
structure RawOp where
  op : Opcode
  t  : Timestamp
  deriving DecidableEq, Repr

/-- The input ports in one cycle of `clk` (R50). A `Bool` port is 1 when `true`. -/
structure InPorts where
  rst       : Bool
  edgeValid : Bool
  edgeLevel : Bool
  edgeTs    : Timestamp
  hostValid : Bool
  hostOp    : BitVec 2
  deriving DecidableEq, Repr

end Sys2Proof
end

