-- ==== Sys2Proof/WellFormed.lean ====
section
/-! DEFINITION. Which requests are defined: the three kinds of reserved encodings of 30_encoding.md R56, as checks. -/
namespace Sys2Proof

/-- `OP` is one of the six values of R53. Fails on R56's first kind. -/
def RawOp.opDefined (r : RawOp) : Bool := r.op.toNat ≤ 5

/-- `OP` is EDGE_FALL's or EDGE_RISE's: the word has an operand (R53). -/
def RawOp.isEdge (r : RawOp) : Bool := r.op == 1 || r.op == 2

/-- `T` is 0 unless the operation has an operand (R52). Fails on R56's second kind. -/
def RawOp.operandDefined (r : RawOp) : Bool := r.isEdge || r.t == 0

/-- The word is one of the six operations (R55). -/
def RawOp.wellFormed (r : RawOp) : Bool := r.opDefined && r.operandDefined

/-- The cycle presents no reserved host operation. Fails on R56's third kind, `host_valid = 1` with
`host_op = 11`; in a reset cycle the request is discarded (70_reset_and_hazards.md R125). -/
def InPorts.wellFormed (p : InPorts) : Bool := p.rst || !(p.hostValid && p.hostOp == 3)

/-- Every instruction is well formed: its operand's type is the field's, and "any `W_T`-bit value is a legal
`T`" (R54). -/
def Instr.wellFormed : Instr → Bool
  | .nop => true
  | .edgeFall _ => true
  | .edgeRise _ => true
  | .init => true
  | .getState => true
  | .takeCode => true

end Sys2Proof
end

