-- ==== Sys2Proof/Decode.lean ====
section
/-! DEFINITION. The decoder of operation words, total and rejecting by name (30_encoding.md R52, R55, R56), and
the encoder (R53). -/
namespace Sys2Proof

/-- Why a word is reserved (R56). -/
inductive Reserved where
  /-- `OP` in 0x6 to 0xF. -/
  | opcode (op : Opcode)
  /-- `OP` in 0x0, 0x3, 0x4, 0x5 with `T ≠ 0`. -/
  | operand (op : Opcode) (t : Timestamp)
  deriving DecidableEq, Repr

/-- The fields of a word: `OP = [W_T+3 : W_T]`, `T = [W_T-1 : 0]` (R52). -/
def fieldsOf (w : OpWord) : RawOp where
  op := w.extractLsb' Config.tsWidth 4
  t  := w.extractLsb' 0 Config.tsWidth

/-- R55, R56. -/
def decodeRaw (r : RawOp) : Except Reserved Instr :=
  if r.op = 0x1 then .ok (.edgeFall r.t)
  else if r.op = 0x2 then .ok (.edgeRise r.t)
  else if 0x5 < r.op.toNat then .error (.opcode r.op)
  else if r.t ≠ 0 then .error (.operand r.op r.t)
  else if r.op = 0x0 then .ok .nop
  else if r.op = 0x3 then .ok .init
  else if r.op = 0x4 then .ok .getState
  else .ok .takeCode

/-- The decoder: every word is exactly one of the six operations or reserved (R55). -/
def decodeWord (w : OpWord) : Except Reserved Instr := decodeRaw (fieldsOf w)

/-- The fields of an instruction's word, from the table of R53. -/
def Instr.raw : Instr → RawOp
  | .nop        => ⟨0x0, 0⟩
  | .edgeFall t => ⟨0x1, t⟩
  | .edgeRise t => ⟨0x2, t⟩
  | .init       => ⟨0x3, 0⟩
  | .getState   => ⟨0x4, 0⟩
  | .takeCode   => ⟨0x5, 0⟩

/-- The word of an instruction: `OP` above `T` (R52). -/
def encode (i : Instr) : OpWord := i.raw.op ++ i.raw.t

/-- The operation word whose bits are `w`, numbered as spec/opcode_table.json numbers them; `nbits` is how many
of them the row has, in whole bytes. A number wider than an operation word is no operation word, and a
reserved word (R56) stands for it. -/
def tableWord (nbits w : Nat) : OpWord :=
  if w % 2 ^ nbits < 2 ^ (4 + Config.tsWidth) then BitVec.ofNat _ (w % 2 ^ nbits) else BitVec.allOnes _

/-- The instruction the decoder reads from a table row's word; none where it refuses. -/
def decodeTableWord (nbits w : Nat) : Option Instr :=
  match decodeWord (tableWord nbits w) with
  | .ok i => some i
  | .error _ => none

end Sys2Proof
end

