-- ==== Sys2Proof/Machine/State.lean ====
section
/-! DEFINITION. The state: the nine registers of 10_state.md R20, the response the block drives, and what the
outside world has presented and the block has not performed yet. -/
namespace Sys2Proof.Machine

/-- DecoderState, the six states of R22. The codes 6 and 7 of R59 have no constructor: they are never held. -/
inductive DecoderState where
  | idle
  | preambleWait
  | active
  | repeatFrame
  | complete
  | error
  deriving DecidableEq, Repr

/-- The class of a rising edge (30_encoding.md R60). -/
inductive EdgeClass where
  | startPulse
  | dataShort
  | dataLong
  | pulseMalformed
  | gapPreambleNormal
  | gapPreambleRepeat
  | gapOther
  | markIgnored
  deriving DecidableEq, Repr

/-- The nine registers of R20, at any timestamp width `W` (00_scope.md R5). -/
structure Regs (W : Nat) where
  /-- DecoderState (R22). -/
  st       : DecoderState
  /-- Data bits accepted so far in the frame (R23). -/
  bitIndex : BitVec 6
  /-- The code being built (R24). -/
  codeBits : BitVec 32
  /-- The last falling edge's timestamp (R25). -/
  lastFall : BitVec W
  /-- The last rising edge's timestamp (R26). -/
  lastRise : BitVec W
  /-- The last validated code (R27). -/
  outCode  : BitVec 32
  /-- Its receive timestamp (R28). -/
  outTs    : BitVec W
  /-- The output register holds a code not yet taken (R29). -/
  pending  : Bool
  /-- INIT has run (R30). -/
  armed    : Bool
  deriving DecidableEq, Repr

/-- The registers right after reset (R34). `lastFall` and `lastRise` are 0 with `Config.params`; another value of
the two parameters is U7 of 93_implementation_defined.md. -/
def Regs.reset {W : Nat} (c : Config.Params) : Regs W where
  st       := .idle
  bitIndex := 0
  codeBits := 0
  lastFall := BitVec.ofNat W c.resetLastFall
  lastRise := BitVec.ofNat W c.resetLastRise
  outCode  := 0
  outTs    := 0
  pending  := false
  armed    := false

/-- The response of one step (30_encoding.md R57). -/
inductive Response (W : Nat) where
  /-- No response, `rsp_valid = 0`. -/
  | silent
  /-- `RSP_STATE`: the code of `st`. -/
  | state (code : BitVec 3)
  /-- `RSP_TAKE`: `V`, `CODE` and `TS`. -/
  | take (v : Bool) (code : BitVec 32) (ts : BitVec W)
  deriving DecidableEq, Repr

/-- One request presented to the block and not yet performed. -/
inductive Request where
  /-- An operation word (R52). -/
  | word (w : OpWord)
  /-- The reserved host operation, `host_op = 11`, which has no operation word (R51, R56). -/
  | reservedHostOp
  deriving DecidableEq, Repr

/-- The whole machine. `regs` is the block's state (R20). `rsp` is its response output. `waiting` and `cycles`
are its inputs: the model's own fields, since `step` is a function of the state alone. `draws` is the model's
own too: it numbers the free choices of 20_memory.md R47. -/
structure State where
  /-- The nine registers. -/
  regs    : Regs Config.tsWidth
  /-- What the last step responded (R57, R58). -/
  rsp     : Response Config.tsWidth
  /-- Requests already presented, in the order they are performed: the rest of the current cycle's, or a trace of
  operation words. -/
  waiting : List Request
  /-- The port values of the coming clock cycles, the next one first (R50). -/
  cycles  : List InPorts
  /-- How many cycles so far carried an edge request and a host request. -/
  draws   : Nat
  deriving DecidableEq, Repr

/-- The machine right after reset (R34): nothing presented, nothing responded. -/
def State.reset : State where
  regs    := Regs.reset Config.params
  rsp     := .silent
  waiting := []
  cycles  := []
  draws   := 0

/-- Why the machine stops with a fault: never. The block raises no exception and every operation completes in
its step for every operand value (60_exceptions.md R110), so this type has no constructor. Safe: no behaviour
of the block is cut off. -/
inductive Fault where
  deriving DecidableEq, Repr

/-- Why a step has no meaning. -/
inductive Refusal where
  /-- An instruction of the table without a meaning in this model; raised by an arm of `exec`, and here by none.
  Safe. -/
  | notModelled (mnemonic : String)
  /-- A reserved operation word (30_encoding.md R56: "a model refuses them"); raised by `step` when it performs
  one. Safe: no claim holds of the run. -/
  | reservedWord (why : Reserved)
  /-- `host_valid = 1` with `host_op = 11` (30_encoding.md R56); raised by `step` when it performs that request.
  Safe: no claim holds of the run. -/
  | reservedHostOp
  deriving DecidableEq, Repr

end Sys2Proof.Machine
end

