-- ==== Sys2Proof/Machine/Operands.lean ====
section
/-! DEFINITION. The arithmetic on operands: durations (00_scope.md R9, 40_edge_classifier.md R67), band membership
(00_scope.md R10), the insertion of a bit (41_frame_state_machine.md R80), and the numeric codes of
30_encoding.md R59 and R60. -/
namespace Sys2Proof.Machine

variable {W : Nat}

/-- `a -_W b`, the wrap-around subtraction every duration is computed with (R9). -/
def duration (a b : BitVec W) : BitVec W := a - b

/-- The mark that ends at a rising edge with timestamp `t` (R67). -/
def Regs.mark (r : Regs W) (t : BitVec W) : BitVec W := duration t r.lastFall

/-- The cell that ends at a rising edge with timestamp `t`; `r` holds `lastRise` as it was before the edge
(R67). -/
def Regs.cell (r : Regs W) (t : BitVec W) : BitVec W := duration t r.lastRise

/-- `d in (lo, hi)`, both bounds excluded (R10). -/
def inOpen (lo hi : Nat) (d : BitVec W) : Bool := lo < d.toNat && d.toNat < hi

/-- `code` with bit `i` set to `b`: `(code & ~(1 << i)) | (b << i)` (R80). -/
def insertBit (code : BitVec 32) (i : BitVec 6) (b : Bool) : BitVec 32 :=
  (code &&& ~~~(1#32 <<< i.toNat)) ||| ((BitVec.ofBool b).setWidth 32 <<< i.toNat)

/-- The 3-bit code of a state (R59). -/
def DecoderState.code : DecoderState → BitVec 3
  | .idle         => 0
  | .preambleWait => 1
  | .active       => 2
  | .repeatFrame  => 3
  | .complete     => 4
  | .error        => 5

/-- The 3-bit code of a class (R60); no port carries it. -/
def EdgeClass.code : EdgeClass → BitVec 3
  | .startPulse        => 0
  | .dataShort         => 1
  | .dataLong          => 2
  | .pulseMalformed    => 3
  | .gapPreambleNormal => 4
  | .gapPreambleRepeat => 5
  | .gapOther          => 6
  | .markIgnored       => 7

end Sys2Proof.Machine
end

