-- ==== Sys2Proof/Machine/Flags.lean ====
section
/-! DEFINITION. The block's two flags, `pending` and `armed` (10_state.md R31): which events clear `pending` and when a
code may be taken, under each value of the parameter `pending_policy` (93_implementation_defined.md U3). -/
namespace Sys2Proof.Machine

variable {W : Nat}

/-- Do an entry to Repeat, an entry to Error for a wrong gap and an entry to Error for a failed validation clear
`pending`? R29 says yes; the document names the clear for PulseMalformed only, and D7 (a) keeps to that. -/
def clearsPending : Config.PendingPolicy → Bool
  | .clearOnErrorAndRepeat => true
  | .clearOnMalformedOnly  => false
  | .takeOnlyInComplete    => true

/-- `pending <- 0` if `clear`. -/
def Regs.dropPending (clear : Bool) (r : Regs W) : Regs W := { r with pending := !clear && r.pending }

/-- Does a TAKE_CODE now return a code? Iff `pending = 1` (43_polling_facade.md R103); under D7 (b), only while
`st = Complete`. -/
def Regs.takeable (c : Config.Params) (r : Regs W) : Bool :=
  match c.pendingPolicy with
  | .clearOnErrorAndRepeat => r.pending
  | .clearOnMalformedOnly  => r.pending
  | .takeOnlyInComplete    => r.pending && r.st == .complete

end Sys2Proof.Machine
end

