-- ==== Sys2Proof/Machine/Ops.lean ====
section
/-! DEFINITION. The shared operations on the registers and on the state. -/
namespace Sys2Proof.Machine

variable {W : Nat}

/-- Entry to Error, "the block's whole trap entry" (60_exceptions.md R116): `st <- Error`, and `pending <- 0` if
`clear`. Nothing is saved and nothing else changes. -/
def Regs.enterError (clear : Bool) (r : Regs W) : Regs W := { r.dropPending clear with st := .error }

/-- A start pulse begins a frame from any state, Error included: the only way out of Error but reset
(41_frame_state_machine.md R81, 60_exceptions.md R117). `codeBits` and `pending` stay. -/
def Regs.startFrame (r : Regs W) : Regs W := { r with st := .preambleWait, bitIndex := 0 }

/-- The preamble of a new frame is complete (R83). -/
def Regs.startBits (r : Regs W) : Regs W := { r with st := .active, codeBits := 0 }

/-- The preamble of a repeat frame is complete (R84). -/
def Regs.enterRepeat (clear : Bool) (r : Regs W) : Regs W := { r.dropPending clear with st := .repeatFrame }

/-- The end of every operation's step: its register writes take effect together and it drives its response
(00_scope.md R12, 30_encoding.md R58). -/
def State.finish (s : State) (r : Regs Config.tsWidth) (rsp : Response Config.tsWidth) : State :=
  { s with regs := r, rsp := rsp }

/-- A reset cycle: every register takes its reset value and there is no response (70_reset_and_hazards.md R125).
What the outside world presents in later cycles is not touched. -/
def State.resetBlock (s : State) : State := s.finish (Regs.reset Config.params) .silent

end Sys2Proof.Machine
end

