-- ==== Sys2Proof/Machine/Classifier.lean ====
section
/-! DEFINITION. The Edge Classifier (40_edge_classifier.md R68). -/
namespace Sys2Proof.Machine

variable {W : Nat}

/-- R68's arms, in its order: the start-pulse band first, then the malformed marks, then the cell's bands in the
two states where a cell has a meaning. -/
def classify (b : Config.Bands) (mark cell : BitVec W) (st : DecoderState) : EdgeClass :=
  if inOpen b.startLo b.startHi mark then .startPulse
  else if mark.toNat < b.markLo ∨ b.markHi < mark.toNat then .pulseMalformed
  else match st with
    | .preambleWait =>
      if inOpen b.preLo b.preHi cell then .gapPreambleNormal
      else if inOpen b.repLo b.repHi cell then .gapPreambleRepeat
      else .gapOther
    | .active =>
      if inOpen b.zeroLo b.zeroHi cell then .dataShort
      else if inOpen b.oneLo b.oneHi cell then .dataLong
      else .gapOther
    | .idle        => .markIgnored
    | .repeatFrame => .markIgnored
    | .complete    => .markIgnored
    | .error       => .markIgnored

end Sys2Proof.Machine
end

