-- ==== Sys2Proof/Machine/Validator.lean ====
section
/-! DEFINITION. The Frame Validator and the output register (42_frame_validator.md R95, R96, R97). -/
namespace Sys2Proof.Machine

variable {W : Nat}

/-- The byte-complement check (R95). -/
def codeOk (code : BitVec 32) : Bool :=
  ((code ^^^ (code >>> 8)) &&& Config.validMask) == Config.validMask

/-- R96: `st`, `outCode`, `outTs` and `pending` change together. -/
def Regs.publish (code : BitVec 32) (t : BitVec W) (r : Regs W) : Regs W :=
  { r with st := .complete, outCode := code, outTs := t, pending := true }

/-- R97: Error, nothing published. -/
def Regs.reject (c : Config.Params) (r : Regs W) : Regs W := r.enterError (clearsPending c.pendingPolicy)

/-- R95. -/
def validate (c : Config.Params) (code : BitVec 32) (t : BitVec W) (r : Regs W) : Regs W :=
  if codeOk code then r.publish code t else r.reject c

end Sys2Proof.Machine
end

