-- ==== Sys2Proof/Machine/Fsm.lean ====
section
/-! DEFINITION. The Frame State Machine (41_frame_state_machine.md R80). -/
namespace Sys2Proof.Machine

variable {W : Nat}

/-- Bit `bitIndex` takes the value `b` and `bitIndex` goes up by one (R80, R87, R88). -/
def Regs.takeBit (b : Bool) (r : Regs W) : Regs W :=
  { r with codeBits := insertBit r.codeBits r.bitIndex b, bitIndex := r.bitIndex + 1 }

/-- `AcceptBit(b, T)`; the 32nd bit runs the validator in the same step (R80, R89). -/
def acceptBit (c : Config.Params) (b : Bool) (t : BitVec W) (r : Regs W) : Regs W :=
  if (r.takeBit b).bitIndex = BitVec.ofNat 6 Config.nBits then validate c (r.takeBit b).codeBits t (r.takeBit b)
  else r.takeBit b

/-- `FsmStep(cls, T)` (R80). A class the classifier never produces in the present state changes nothing (R91). -/
def fsmStep (c : Config.Params) (cls : EdgeClass) (t : BitVec W) (r : Regs W) : Regs W :=
  match cls with
  | .startPulse        => r.startFrame
  | .pulseMalformed    => r.enterError true
  | .gapPreambleNormal => if r.st = .preambleWait then r.startBits else r
  | .gapPreambleRepeat => if r.st = .preambleWait then r.enterRepeat (clearsPending c.pendingPolicy) else r
  | .gapOther =>
    match r.st with
    | .preambleWait =>
      match c.preambleGapOther with
      | .noOp  => r
      | .error => r.enterError (clearsPending c.pendingPolicy)
    | .active      => r.enterError (clearsPending c.pendingPolicy)
    | .idle        => r
    | .repeatFrame => r
    | .complete    => r
    | .error       => r
  | .dataShort   => if r.st = .active then acceptBit c false t r else r
  | .dataLong    => if r.st = .active then acceptBit c true t r else r
  | .markIgnored => r

end Sys2Proof.Machine
end

