-- ==== Sys2Proof/Machine/Edge.lean ====
section
/-! DEFINITION. The edge operations EDGE_FALL and EDGE_RISE (40_edge_classifier.md R65, R66). -/
namespace Sys2Proof.Machine

variable {W : Nat}

/-- EDGE_FALL on the registers (R65). -/
def edgeFall (t : BitVec W) (r : Regs W) : Regs W :=
  if r.armed then { r with lastFall := t } else r

/-- The class of the rising edge at `t`, from the registers before it (R66, R67, R68). -/
def Regs.classAt (c : Config.Params) (t : BitVec W) (r : Regs W) : EdgeClass :=
  classify c.bands (r.mark t) (r.cell t) r.st

/-- EDGE_RISE on the registers (R66). The class is computed before `lastRise` is written. -/
def edgeRise (c : Config.Params) (t : BitVec W) (r : Regs W) : Regs W :=
  if r.armed then fsmStep c (r.classAt c t) t { r with lastRise := t } else r

/-- EDGE_FALL `T` (R65). It has no response (30_encoding.md R57). -/
def execEdgeFall (t : Timestamp) (s : State) : Host.Outcome State Fault Refusal :=
  .next (s.finish (edgeFall t s.regs) .silent)

/-- EDGE_RISE `T` (R66). It has no response (30_encoding.md R57). -/
def execEdgeRise (t : Timestamp) (s : State) : Host.Outcome State Fault Refusal :=
  .next (s.finish (edgeRise Config.params t s.regs) .silent)

end Sys2Proof.Machine
end

