-- ==== Sys2Proof/Machine/Facade.lean ====
section
/-! DEFINITION. The host operations INIT, GET_STATE and TAKE_CODE, and NOP (43_polling_facade.md R100 to R105). -/
namespace Sys2Proof.Machine

variable {W : Nat}

/-- What TAKE_CODE responds (R103). With `V = 0` the other fields are 0 (30_encoding.md R57). -/
def takeResponse (c : Config.Params) (r : Regs W) : Response W :=
  if r.takeable c then .take true r.outCode r.outTs else .take false 0 0

/-- TAKE_CODE on the registers: a returned code is consumed (R103). -/
def takeCode (c : Config.Params) (r : Regs W) : Regs W := r.dropPending (r.takeable c)

/-- NOP (R100). -/
def execNop (s : State) : Host.Outcome State Fault Refusal :=
  .next (s.finish s.regs .silent)

/-- INIT (R101). -/
def execInit (s : State) : Host.Outcome State Fault Refusal :=
  .next (s.finish { s.regs with armed := true } .silent)

/-- GET_STATE (R102). -/
def execGetState (s : State) : Host.Outcome State Fault Refusal :=
  .next (s.finish s.regs (.state s.regs.st.code))

/-- TAKE_CODE (R103): the read and the clear are one step. -/
def execTakeCode (s : State) : Host.Outcome State Fault Refusal :=
  .next (s.finish (takeCode Config.params s.regs) (takeResponse Config.params s.regs))

end Sys2Proof.Machine
end

