-- ==== Sys2Proof/Machine/Dispatch.lean ====
section
/-! DEFINITION. The meaning of every instruction, one arm per constructor of Instr. -/
namespace Sys2Proof.Machine

def exec (i : Instr) (s : State) : Host.Outcome State Fault Refusal :=
  match i with
  | .nop => Sys2Proof.Machine.execNop s
  | .edgeFall t => Sys2Proof.Machine.execEdgeFall t s
  | .edgeRise t => Sys2Proof.Machine.execEdgeRise t s
  | .init => Sys2Proof.Machine.execInit s
  | .getState => Sys2Proof.Machine.execGetState s
  | .takeCode => Sys2Proof.Machine.execTakeCode s

end Sys2Proof.Machine
end

