-- ==== Sys2Proof/Machine/Ports.lean ====
section
/-! DEFINITION. The ports (30_encoding.md R50): which requests a clock cycle presents (R51), and what the response
ports carry (R57). -/
namespace Sys2Proof.Machine

variable {W : Nat}

/-- The edge request of a cycle, if there is one (R51). -/
def edgeRequests (p : InPorts) : List Request :=
  if p.edgeValid then
    [.word (encode (if p.edgeLevel then .edgeRise p.edgeTs else .edgeFall p.edgeTs))]
  else []

/-- The request a value of `host_op` selects (R50, R51). -/
def hostRequest (op : BitVec 2) : Request :=
  if op = 0 then .word (encode .init)
  else if op = 1 then .word (encode .getState)
  else if op = 2 then .word (encode .takeCode)
  else .reservedHostOp

/-- The host request of a cycle, if there is one (R51). -/
def hostRequests (p : InPorts) : List Request :=
  if p.hostValid then [hostRequest p.hostOp] else []

/-- The requests of a cycle in the order they are performed: both orders of an edge request and a host request
are admitted (20_memory.md R47), and `edgeFirst` chooses. A cycle with one request or none does not look at it. -/
def cycleRequests (edgeFirst : Bool) (p : InPorts) : List Request :=
  if p.edgeValid && p.hostValid && !edgeFirst then hostRequests p ++ edgeRequests p
  else edgeRequests p ++ hostRequests p

/-- The state after a cycle's ports are read and before its first request is performed: the cycle is used up, its
requests wait, and a cycle with two requests uses up one draw of the free order. -/
def State.sample (s : State) (p : InPorts) (later : List InPorts) : State :=
  { s with
    waiting := cycleRequests (Config.edgeFirst s.draws) p
    cycles  := later
    draws   := if p.edgeValid && p.hostValid then s.draws + 1 else s.draws }

/-- The outside world presents one more clock cycle, after those already presented. -/
def State.presentCycle (s : State) (p : InPorts) : State := { s with cycles := s.cycles ++ [p] }

/-- The outside world presents one more operation word, after the requests that already wait. -/
def State.presentWord (s : State) (w : OpWord) : State := { s with waiting := s.waiting ++ [.word w] }

/-- `rsp_valid` (R50). -/
def Response.valid : Response W → Bool
  | .silent     => false
  | .state _    => true
  | .take _ _ _ => true

/-- `rsp_state`; the spec gives the port a value for GET_STATE's response only. -/
def Response.rspState : Response W → Option (BitVec 3)
  | .silent     => none
  | .state code => some code
  | .take _ _ _ => none

/-- `rsp_v`; the spec gives the port a value for TAKE_CODE's response only. -/
def Response.rspV : Response W → Option Bool
  | .silent     => none
  | .state _    => none
  | .take v _ _ => some v

/-- `rsp_code`; the spec gives the port a value for TAKE_CODE's response only. -/
def Response.rspCode : Response W → Option (BitVec 32)
  | .silent        => none
  | .state _       => none
  | .take _ code _ => some code

/-- `rsp_ts`; the spec gives the port a value for TAKE_CODE's response only. -/
def Response.rspTs : Response W → Option (BitVec W)
  | .silent      => none
  | .state _     => none
  | .take _ _ ts => some ts

/-- The response word of TAKE_CODE, `RSP_TAKE`: bit `W_T+32` is V, then CODE, then TS (R57). -/
def Response.takeWord : Response W → Option (BitVec (1 + 32 + W))
  | .silent         => none
  | .state _        => none
  | .take v code ts => some (BitVec.ofBool v ++ code ++ ts)

end Sys2Proof.Machine
end

