-- ==== Sys2Proof/Machine/Step.lean ====
section
/-! DEFINITION. One step of the machine: exactly one operation, or a reset (00_scope.md R12). -/
namespace Sys2Proof.Machine

/-- One request: the operation its word decodes to; a reserved one is refused (30_encoding.md R55, R56). -/
def perform (q : Request) (s : State) : Host.Outcome State Fault Refusal :=
  match q with
  | .word w =>
    match decodeWord w with
    | .ok i => exec i s
    | .error why => .refused (.reservedWord why)
  | .reservedHostOp => .refused .reservedHostOp

/-- The first waiting request; with none, the empty cycle's NOP (30_encoding.md R51). -/
def performNext (s : State) : Host.Outcome State Fault Refusal :=
  match s.waiting with
  | []      => exec .nop s
  | q :: qs => perform q { s with waiting := qs }

/-- One step. Requests that wait come first; then the next clock cycle is read: with `rst = 1` it is a reset and
its requests are discarded (70_reset_and_hazards.md R125), otherwise its first request is performed in this step
and a second one waits (30_encoding.md R51). With nothing presented it is an empty cycle. -/
def step (s : State) : Host.Outcome State Fault Refusal :=
  match s.waiting, s.cycles with
  | [], p :: ps =>
    if p.rst then .next { s.resetBlock with cycles := ps } else performNext (s.sample p ps)
  | [], []     => performNext s
  | _ :: _, _  => performNext s

/-- `s` with the operation word of a table row presented ahead of everything else, so that the next step performs
it. -/
def State.withFetchWord (s : State) (nbits w : Nat) : State :=
  { s with waiting := .word (tableWord nbits w) :: s.waiting }

end Sys2Proof.Machine
end

