-- ==== Sys2Proof/Machine/Trace.lean ====
section
/-! DEFINITION. The trace front end: the pseudo-operations of 30_encoding.md R62 and the text syntax of R61. It
turns text into operation words; no meaning of an operation stands here. -/
namespace Sys2Proof.Machine

/-- `mark T D`: one mark of duration `d` starting at `t` (R62). -/
def markOps (t d : Timestamp) : List Instr := [.edgeFall t, .edgeRise (t + d)]

/-- The space that follows a data mark and carries bit `b` (R62). -/
def dataSpace (b : Bool) : Timestamp := if b then 1690 else 565

/-- The data marks of `necframe` from time `t` on: one before each bit's space, and the final one (R62). -/
def dataMarkOps (t : Timestamp) : List Bool → List Instr
  | []      => markOps t 560
  | b :: bs => markOps t 560 ++ dataMarkOps (t + 560 + dataSpace b) bs

/-- The bits of a code in the order they are sent, bit 0 first (R62, 20_memory.md R41). -/
def sentBits (code : Code) : List Bool := (List.range 32).map code.getLsbD

/-- `necframe T C` (R62). -/
def necframeOps (t : Timestamp) (code : Code) : List Instr :=
  markOps t 9000 ++ dataMarkOps (t + 13500) (sentBits code)

/-- `necrepeat T` (R62). -/
def necrepeatOps (t : Timestamp) : List Instr := markOps t 9000 ++ markOps (t + 11500) 560

/-- Presents a list of operations as their words, after the requests that already wait. -/
def State.presentTrace (s : State) (ops : List Instr) : State :=
  { s with waiting := s.waiting ++ ops.map fun i => .word (encode i) }

/-- The value of a digit in the given base, if it is one. -/
def digitValue (base : Nat) (ch : Char) : Option Nat :=
  let v := if '0' ≤ ch ∧ ch ≤ '9' then ch.toNat - '0'.toNat
    else if 'a' ≤ ch ∧ ch ≤ 'f' then ch.toNat - 'a'.toNat + 10
    else if 'A' ≤ ch ∧ ch ≤ 'F' then ch.toNat - 'A'.toNat + 10
    else base
  if v < base then some v else none

/-- The digits of a number, most significant first; `acc` is the number read so far. -/
def readDigits (base acc : Nat) : List Char → Option Nat
  | []      => some acc
  | d :: ds => (digitValue base d).bind fun v => readDigits base (acc * base + v) ds

/-- A number, decimal or `0x` hexadecimal (R61). -/
def readNumber : List Char → Option Nat
  | []               => none
  | ['0', 'x']       => none
  | '0' :: 'x' :: ds => readDigits 16 0 ds
  | d :: ds          => readDigits 10 0 (d :: ds)

/-- A number reduced modulo `2^W_T` (R61). -/
def readTime (word : List Char) : Option Timestamp := (readNumber word).map (BitVec.ofNat Config.tsWidth)

/-- The words of a line: `word` holds the characters of the word being read, last one first. -/
def splitWords (word : List Char) : List Char → List (List Char)
  | []      => if word.isEmpty then [] else [word.reverse]
  | c :: cs =>
    if c = ' ' ∨ c = '\t' ∨ c = '\r' then
      if word.isEmpty then splitWords [] cs else word.reverse :: splitWords [] cs
    else splitWords (c :: word) cs

/-- The operations of a line without its comment; `none` is the front end's refusal (R61). -/
def readWords : List (List Char) → Option (List Instr)
  | []                   => some []
  | [op]                 =>
    if op = ['n', 'o', 'p'] then some [.nop]
    else if op = ['i', 'n', 'i', 't'] then some [.init]
    else if op = ['s', 't', 'a', 't', 'e'] then some [.getState]
    else if op = ['t', 'a', 'k', 'e'] then some [.takeCode]
    else none
  | [op, a]              =>
    if op = ['f', 'a', 'l', 'l'] then (readTime a).map fun t => [.edgeFall t]
    else if op = ['r', 'i', 's', 'e'] then (readTime a).map fun t => [.edgeRise t]
    else if op = ['n', 'e', 'c', 'r', 'e', 'p', 'e', 'a', 't'] then (readTime a).map necrepeatOps
    else none
  | [op, a, b]           =>
    if op = ['m', 'a', 'r', 'k'] then
      (readTime a).bind fun t => (readTime b).map fun d => markOps t d
    else if op = ['n', 'e', 'c', 'f', 'r', 'a', 'm', 'e'] then
      (readTime a).bind fun t => (readTime b).map fun c => necframeOps t (c.setWidth 32)
    else none
  | _ :: _ :: _ :: _ :: _ => none

/-- One line of a trace: `;` starts a comment (R61). -/
def readLine (line : List Char) : Option (List Instr) :=
  readWords (splitWords [] (line.takeWhile (· != ';')))

/-- The lines of a text: `line` holds the characters of the line being read, last one first. -/
def splitLines (line : List Char) : List Char → List (List Char)
  | []      => [line.reverse]
  | c :: cs => if c = '\n' then line.reverse :: splitLines [] cs else splitLines (c :: line) cs

/-- A whole trace as operations; refused if one of its lines is (R61). -/
def readTrace (text : List Char) : Option (List Instr) :=
  ((splitLines [] text).mapM readLine).map List.flatten

/-- The states' names in the order of their codes (R59). -/
def stateNames : List String := ["Idle", "PreambleWait", "Active", "Repeat", "Complete", "Error"]

/-- What a listing writes for a response (R61). -/
inductive Listed where
  /-- The step had no response. -/
  | nothing
  /-- GET_STATE: the state's name; none for a code R59 gives no state. -/
  | state (name : Option String)
  /-- TAKE_CODE: `none`. -/
  | takeNone
  /-- TAKE_CODE: `(code, ts)`. -/
  | takePair (code : Code) (ts : Timestamp)
  deriving DecidableEq, Repr

/-- R61's listing of a response. -/
def listed : Response Config.tsWidth → Listed
  | .silent            => .nothing
  | .state code        => .state stateNames[code.toNat]?
  | .take true code ts => .takePair code ts
  | .take false _ _    => .takeNone

end Sys2Proof.Machine
end

