-- ==== Sys2Proof/Safety.lean ====
section
/-! DEFINITION. The notions the claims are stated in: the invariants of 10_state.md R33, the registers before INIT,
runs and reachable states, well-timed frames, inputs without a reserved request, and register values no operation
can tell apart. -/
namespace Sys2Proof.Safety

open Sys2Proof.Machine

variable {W : Nat}

/-- The invariants of 10_state.md R33, one field for each. -/
structure RegsInv (r : Regs W) : Prop where
  /-- (a); that `st` is one of the six states is its type. -/
  bitIndex_le : r.bitIndex.toNat ≤ 32
  /-- (b) -/
  preambleWait_start : r.st = .preambleWait → r.bitIndex = 0
  /-- (c) -/
  active_bits : r.st = .active → r.bitIndex.toNat ≤ 31 ∧ r.codeBits >>> r.bitIndex.toNat = 0
  /-- (d) -/
  quiet_states : r.st = .idle ∨ r.st = .repeatFrame ∨ r.st = .error → r.pending = false
  /-- (e) -/
  idle_clear : r.st = .idle →
    r.bitIndex = 0 ∧ r.codeBits = 0 ∧ r.outCode = 0 ∧ r.outTs = 0 ∧ r.pending = false
  /-- (f) -/
  complete_code : r.st = .complete → r.bitIndex = 32 ∧ r.outCode = r.codeBits ∧ codeOk r.outCode = true

/-- Until INIT is performed, every register is as the reset left it: edges change nothing while not armed
(40_edge_classifier.md R65, R66) and the host operations have nothing to return (43_polling_facade.md R105). -/
def UnarmedAtReset (r : Regs Config.tsWidth) : Prop := r.armed = false → r = Regs.reset Config.params

/-- What a run of the machine can meet: reset, then steps, with anything presented between two steps. -/
inductive Reachable : State → Prop where
  | reset : Reachable State.reset
  | step {s s' : State} : Reachable s → Machine.step s = .next s' → Reachable s'
  | cycle {s : State} (p : InPorts) : Reachable s → Reachable (s.presentCycle p)
  | word {s : State} (w : OpWord) : Reachable s → Reachable (s.presentWord w)

/-- Performs a list of operations in order (20_memory.md R46). -/
def execAll : List Instr → State → Host.Outcome State Fault Refusal
  | [], s => .next s
  | i :: is, s =>
    match exec i s with
    | .next s'   => execAll is s'
    | .fault f   => .fault f
    | .refused r => .refused r

/-- The request is defined: no reserved one (30_encoding.md R56). -/
def requestDefined : Request → Bool
  | .word w         => (fieldsOf w).wellFormed
  | .reservedHostOp => false

/-- Nothing the outside world has presented is reserved. -/
def inputsDefined (s : State) : Bool := s.waiting.all requestDefined && s.cycles.all InPorts.wellFormed

/-- One mark with the bit its cell carries: its falling edge and its rising edge. -/
structure DataMark where
  bit  : Bool
  fall : Timestamp
  rise : Timestamp
  deriving DecidableEq, Repr

/-- Its edges as operations. -/
def DataMark.ops (m : DataMark) : List Instr := [.edgeFall m.fall, .edgeRise m.rise]

/-- The mark's duration is a data mark's and its cell, from the rising edge at `prev`, is in the band of its bit
(00_scope.md R6, R10). -/
def DataMark.Timed (prev : Timestamp) (m : DataMark) : Prop :=
  520 ≤ (m.rise - m.fall).toNat ∧ (m.rise - m.fall).toNat ≤ 700 ∧
    if m.bit then 2000 < (m.rise - prev).toNat ∧ (m.rise - prev).toNat < 2500
    else 900 < (m.rise - prev).toNat ∧ (m.rise - prev).toNat < 1300

/-- Each mark is well timed after the one before it; `prev` is the rising edge before the first. -/
def AllTimed : Timestamp → List DataMark → Prop
  | _, []         => True
  | prev, m :: ms => m.Timed prev ∧ AllTimed m.rise ms

/-- The start mark and the mark that ends the preamble cell of a new frame (00_scope.md R6). -/
structure Preamble where
  startFall : Timestamp
  startRise : Timestamp
  fall      : Timestamp
  rise      : Timestamp
  deriving DecidableEq, Repr

/-- Its edges as operations. -/
def Preamble.ops (p : Preamble) : List Instr :=
  [.edgeFall p.startFall, .edgeRise p.startRise, .edgeFall p.fall, .edgeRise p.rise]

/-- Its start mark is a start pulse and its second mark a data mark. -/
def Preamble.Marked (p : Preamble) : Prop :=
  8500 < (p.startRise - p.startFall).toNat ∧ (p.startRise - p.startFall).toNat < 9500 ∧
    520 ≤ (p.rise - p.fall).toNat ∧ (p.rise - p.fall).toNat ≤ 700

/-- Its cell is a new frame's. -/
def Preamble.Normal (p : Preamble) : Prop :=
  4800 < (p.rise - p.startRise).toNat ∧ (p.rise - p.startRise).toNat < 5300

/-- Its cell is a repeat frame's. -/
def Preamble.Repeated (p : Preamble) : Prop :=
  2800 < (p.rise - p.startRise).toNat ∧ (p.rise - p.startRise).toNat < 3300

/-- All operations of a frame. -/
def frameOps (p : Preamble) (ms : List DataMark) : List Instr := p.ops ++ ms.flatMap DataMark.ops

/-- Two register values no later operation can tell apart: they differ at most in `codeBits` outside Active and in
`bitIndex` outside PreambleWait and Active (41_frame_state_machine.md R94). -/
structure SameToTheHost (r r' : Regs W) : Prop where
  st       : r'.st = r.st
  lastFall : r'.lastFall = r.lastFall
  lastRise : r'.lastRise = r.lastRise
  outCode  : r'.outCode = r.outCode
  outTs    : r'.outTs = r.outTs
  pending  : r'.pending = r.pending
  armed    : r'.armed = r.armed
  bitIndex : r.st = .preambleWait ∨ r.st = .active → r'.bitIndex = r.bitIndex
  codeBits : r.st = .active → r'.codeBits = r.codeBits

/-- The registers with every stored edge timestamp moved by `d`. -/
def shiftEdges (d : BitVec W) (r : Regs W) : Regs W :=
  { r with lastFall := r.lastFall + d, lastRise := r.lastRise + d }

end Sys2Proof.Safety
end

