-- ==== Sys2Proof/Certificates/Slice0/Obligations.lean ====
section
/-! DEFINITION. The statements for the provers. Each docstring names the rules of spec/ it rests on. -/

open Sys2Proof Sys2Proof.Machine Sys2Proof.Safety

/-! ## Reset -/

/-- 10_state.md R34 (decision D10 of the spec): the value of every register after reset. -/
def Obligations.ResetLeavesEveryRegisterAtItsValue : Prop :=
  State.reset.regs =
    { st := .idle, bitIndex := 0, codeBits := 0, lastFall := 0, lastRise := 0, outCode := 0, outTs := 0,
      pending := false, armed := false }

/-- 70_reset_and_hazards.md R125 (decisions D10, D25): a cycle with `rst = 1` loads every reset value, gives no
response and discards the requests of that cycle, whatever they are; then the block waits. That later cycles and
`draws` stay is the model's own form (log 2, 3, 19). -/
def Obligations.ResetCycleReloadsEveryRegister : Prop :=
  ∀ (s : State) (p : InPorts) (ps : List InPorts), s.waiting = [] → s.cycles = p :: ps → p.rst = true →
    step s = .next
      { regs := { st := .idle, bitIndex := 0, codeBits := 0, lastFall := 0, lastRise := 0, outCode := 0, outTs := 0,
                  pending := false, armed := false }
        rsp := .silent, waiting := [], cycles := ps, draws := s.draws }

/-- 70_reset_and_hazards.md R128: the first rising edge after reset and INIT, with no falling edge before it, is
classified from its raw timestamp. -/
def Obligations.FirstRisingEdgeIsMeasuredFromZero : Prop :=
  ∀ t : Timestamp, ∃ u v : State, exec .init State.reset = .next u ∧ exec (.edgeRise t) u = .next v ∧
    v.regs.lastRise = t ∧
    v.regs.st = (if 8500 < t.toNat ∧ t.toNat < 9500 then .preambleWait
      else if t.toNat < 520 ∨ 700 < t.toNat then .error
      else .idle)

/-! ## Steps, requests and ports -/

/-- 00_scope.md R12, 20_memory.md R46: a step performs exactly the first request that waits, and that is the
operation its word decodes to; the other requests and the coming cycles keep waiting. That requests wait in a list
is the model's own form (log 3). -/
def Obligations.StepPerformsTheDecodedWord : Prop :=
  ∀ (s : State) (w : OpWord) (qs : List Request) (i : Instr),
    s.waiting = .word w :: qs → decodeWord w = .ok i → step s = exec i { s with waiting := qs }

/-- 30_encoding.md R51 (decision D1): the operations of a clock cycle, as its ports select them. Two requests take
two steps, in one of the two orders 20_memory.md R47 leaves open. Which of the two is the free value of log 2. -/
def Obligations.PortsSelectTheOperations : Prop :=
  ∀ (s : State) (p : InPorts) (ps : List InPorts), s.waiting = [] → s.cycles = p :: ps →
    let s0 : State := { s with cycles := ps }
    let s2 : State := { s with cycles := ps, draws := s.draws + 1 }
    let edge : Instr := if p.edgeLevel then .edgeRise p.edgeTs else .edgeFall p.edgeTs
    (p.rst = true → step s = .next { State.reset with cycles := ps, draws := s.draws }) ∧
    (p.rst = false → p.edgeValid = false → p.hostValid = false → step s = exec .nop s0) ∧
    (p.rst = false → p.edgeValid = true → p.hostValid = false → step s = exec edge s0) ∧
    (p.rst = false → p.edgeValid = false → p.hostValid = true →
      (p.hostOp = 0b00 → step s = exec .init s0) ∧
      (p.hostOp = 0b01 → step s = exec .getState s0) ∧
      (p.hostOp = 0b10 → step s = exec .takeCode s0) ∧
      (p.hostOp = 0b11 → step s = .refused .reservedHostOp)) ∧
    (p.rst = false → p.edgeValid = true → p.hostValid = true →
      (∀ host : Instr,
        (p.hostOp = 0b00 ∧ host = .init) ∨ (p.hostOp = 0b01 ∧ host = .getState) ∨
          (p.hostOp = 0b10 ∧ host = .takeCode) →
        Host.Core.run Sys2Proof.core 2 s = execAll [edge, host] s2 ∨
          Host.Core.run Sys2Proof.core 2 s = execAll [host, edge] s2) ∧
      (p.hostOp = 0b11 → Host.Core.run Sys2Proof.core 2 s = .refused .reservedHostOp))

/-- 30_encoding.md R56 (decision D23): each of the three kinds of reserved requests is refused when its turn comes.
-/
def Obligations.ReservedRequestsAreRefused : Prop :=
  (∀ (s : State) (w : OpWord) (qs : List Request), s.waiting = .word w :: qs →
    (6 ≤ w.toNat / 2 ^ 32 ∨
      (w.toNat / 2 ^ 32 ∈ [0, 3, 4, 5] ∧ w.toNat % 2 ^ 32 ≠ 0)) →
    ∃ why, decodeWord w = .error why ∧ step s = .refused (.reservedWord why)) ∧
  (∀ (s : State) (p : InPorts) (ps : List InPorts), s.waiting = [] → s.cycles = p :: ps → p.rst = false →
    p.edgeValid = false → p.hostValid = true → p.hostOp = 0b11 → step s = .refused .reservedHostOp) ∧
  (∀ (s : State) (qs : List Request), s.waiting = .reservedHostOp :: qs → step s = .refused .reservedHostOp)

/-- 60_exceptions.md R110 and 30_encoding.md R56: with no reserved request presented, the machine never stops, in
any state and whatever the timestamps. -/
def Obligations.DefinedInputsNeverStop : Prop :=
  ∀ s : State, inputsDefined s = true → ∃ t, step s = .next t ∧ inputsDefined t = true

/-- 20_memory.md R46: a trace of operation words runs as its operations, one a step and in order; what waits behind
it is not touched. That requests wait in a list is the model's own form (log 3). -/
def Obligations.TraceRunsItsOperationsInOrder : Prop :=
  ∀ (ops : List Instr) (s : State) (qs : List Request),
    Host.Core.run Sys2Proof.core ops.length
        { s with waiting := (ops.map fun i => Request.word (encode i)) ++ qs } =
      execAll ops { s with waiting := qs }

/-! ## Encoding -/

/-- 30_encoding.md R55 (decision D12), over the word as a number: `OP` is its value over `2^32`, `T` the rest. -/
def Obligations.DecoderReadsOpAndOperand : Prop :=
  ∀ w : OpWord,
    let op := w.toNat / 2 ^ 32
    let t := w.toNat % 2 ^ 32
    (op = 0x1 → decodeWord w = .ok (.edgeFall (BitVec.ofNat 32 t))) ∧
    (op = 0x2 → decodeWord w = .ok (.edgeRise (BitVec.ofNat 32 t))) ∧
    (op = 0x0 → t = 0 → decodeWord w = .ok .nop) ∧
    (op = 0x3 → t = 0 → decodeWord w = .ok .init) ∧
    (op = 0x4 → t = 0 → decodeWord w = .ok .getState) ∧
    (op = 0x5 → t = 0 → decodeWord w = .ok .takeCode) ∧
    (op ∈ [0x0, 0x3, 0x4, 0x5] → t ≠ 0 → ∃ why, decodeWord w = .error why) ∧
    (0x6 ≤ op → ∃ why, decodeWord w = .error why)

/-- 30_encoding.md R53: one word for each operation, written out from the table. -/
def Obligations.SampleWordsDecode : Prop :=
  decodeWord 0x000000000 = .ok .nop ∧ decodeWord 0x1000003E8 = .ok (.edgeFall 1000) ∧
  decodeWord 0x2FFFF2328 = .ok (.edgeRise 4294910760) ∧ decodeWord 0x300000000 = .ok .init ∧
  decodeWord 0x400000000 = .ok .getState ∧ decodeWord 0x500000000 = .ok .takeCode

/-- 30_encoding.md R52, R53, R55: no bit of an instruction is lost on the way into its word and back. -/
def Obligations.DecodeOfEncodeIsTheInstruction : Prop :=
  ∀ i : Instr, decodeWord (encode i) = .ok i

/-- 30_encoding.md R55: an operation has one word only. -/
def Obligations.EncodeOfDecodeIsTheWord : Prop :=
  ∀ (w : OpWord) (i : Instr), decodeWord w = .ok i → encode i = w

/-! ## Host operations -/

/-- 43_polling_facade.md R100. -/
def Obligations.NopChangesNoRegister : Prop :=
  ∀ s : State, exec .nop s = .next { s with rsp := .silent }

/-- 43_polling_facade.md R101 (decision D9): INIT writes `armed` and nothing else, and a second one changes nothing.
-/
def Obligations.InitArmsAndIsIdempotent : Prop :=
  ∀ s : State,
    exec .init s = .next { s with regs := { s.regs with armed := true }, rsp := .silent } ∧
    (s.regs.armed = true → exec .init s = .next { s with rsp := .silent })

/-- 43_polling_facade.md R102 with the codes of 30_encoding.md R59. -/
def Obligations.GetStateReturnsTheStateCode : Prop :=
  ∀ s : State, ∃ code : BitVec 3,
    exec .getState s = .next { s with rsp := .state code } ∧
    code.toNat = (match s.regs.st with
      | .idle => 0 | .preambleWait => 1 | .active => 2 | .repeatFrame => 3 | .complete => 4 | .error => 5)

/-- 43_polling_facade.md R103 (decisions D7, D8): a pending code is returned and consumed in one step; with nothing
pending nothing is written; so in Idle, Repeat and Error nothing is returned (by R33). -/
def Obligations.TakeCodeReturnsAndConsumes : Prop :=
  (∀ s : State, s.regs.pending = true →
    exec .takeCode s = .next
      { s with regs := { s.regs with pending := false }, rsp := .take true s.regs.outCode s.regs.outTs }) ∧
  (∀ s : State, s.regs.pending = false →
    exec .takeCode s = .next { s with rsp := .take false 0 0 }) ∧
  (∀ s : State, RegsInv s.regs → s.regs.st = .idle ∨ s.regs.st = .repeatFrame ∨ s.regs.st = .error →
    exec .takeCode s = .next { s with rsp := .take false 0 0 })

/-- 43_polling_facade.md R104: two TAKE_CODEs with host operations only between them return at most one code. -/
def Obligations.SecondTakeReturnsNone : Prop :=
  ∀ (s : State) (between : List Instr), (∀ i ∈ between, i ∈ [.nop, .init, .getState, .takeCode]) →
    ∃ t, execAll (.takeCode :: between ++ [.takeCode]) s = .next t ∧ t.rsp.rspV = some false

/-- 30_encoding.md R57 (decisions D8, D13): which operations respond, and the bits of their responses. That a port
outside the response carries no value is the model's own form (log 4). -/
def Obligations.ResponsesHaveTheirFormats : Prop :=
  (∀ s : State, ∃ t, exec .getState s = .next t ∧ t.rsp.valid = true ∧ t.rsp.rspState = some s.regs.st.code) ∧
  (∀ s : State, ∃ t w, exec .takeCode s = .next t ∧ t.rsp.valid = true ∧ t.rsp.takeWord = some w ∧
    w.getLsbD 64 = s.regs.pending ∧
    w.extractLsb' 32 32 = (if s.regs.pending then s.regs.outCode else 0) ∧
    w.extractLsb' 0 32 = (if s.regs.pending then s.regs.outTs else 0)) ∧
  (∀ (s : State) (i : Instr), i ≠ .getState → i ≠ .takeCode → ∃ t, exec i s = .next t ∧ t.rsp.valid = false)

/-- 43_polling_facade.md R105 (decision D9): the host operations complete from every state, before INIT too, and
what they never change. Before INIT, in every state whose registers are then as the reset left them (which every
step keeps: EveryStepKeepsTheUnarmedRegistersAtReset), GET_STATE returns Idle and TAKE_CODE none. -/
def Obligations.HostOperationsLeaveTheDecoderAlone : Prop :=
  (∀ (s : State) (i : Instr), i ∈ [.init, .getState, .takeCode] →
    ∃ t, exec i s = .next t ∧
      t.regs.st = s.regs.st ∧ t.regs.bitIndex = s.regs.bitIndex ∧ t.regs.codeBits = s.regs.codeBits ∧
      t.regs.lastFall = s.regs.lastFall ∧ t.regs.lastRise = s.regs.lastRise ∧
      t.regs.outCode = s.regs.outCode ∧ t.regs.outTs = s.regs.outTs ∧
      (i ≠ .takeCode → t.regs.pending = s.regs.pending) ∧ (i ≠ .init → t.regs.armed = s.regs.armed) ∧
      t.waiting = s.waiting ∧ t.cycles = s.cycles ∧ t.draws = s.draws) ∧
  (∀ s : State, UnarmedAtReset s.regs → s.regs.armed = false →
    ∃ t u, exec .getState s = .next t ∧ t.rsp = .state 0 ∧ exec .takeCode s = .next u ∧ u.rsp.rspV = some false)

/-! ## Edge operations and the classifier -/

/-- 40_edge_classifier.md R65 (decision D9): EDGE_FALL writes `lastFall` while armed, and nothing while not. -/
def Obligations.EdgeFallRecordsItsTimestamp : Prop :=
  ∀ (s : State) (t : Timestamp),
    (s.regs.armed = true →
      exec (.edgeFall t) s = .next { s with regs := { s.regs with lastFall := t }, rsp := .silent }) ∧
    (s.regs.armed = false → exec (.edgeFall t) s = .next { s with rsp := .silent })

/-- 40_edge_classifier.md R66, R67 with 00_scope.md R9 (decisions D4, D9): while armed, EDGE_RISE classifies the
durations modulo `2^32` since the last falling and the last rising edge, records its timestamp and runs one step of
the state machine on the class; while not armed it writes nothing. -/
def Obligations.EdgeRiseClassifiesThenSteps : Prop :=
  ∀ (s : State) (t : Timestamp),
    (s.regs.armed = true → ∀ mark cell : BitVec 32,
      mark.toNat = (t.toNat + 2 ^ 32 - s.regs.lastFall.toNat) % 2 ^ 32 →
      cell.toNat = (t.toNat + 2 ^ 32 - s.regs.lastRise.toNat) % 2 ^ 32 →
      exec (.edgeRise t) s = .next
        { s with
          regs := fsmStep Config.params (classify Config.params.bands mark cell s.regs.st) t
            { s.regs with lastRise := t }
          rsp := .silent }) ∧
    (s.regs.armed = false → exec (.edgeRise t) s = .next { s with rsp := .silent })

/-- 40_edge_classifier.md R68 with the values of 00_scope.md R6. -/
def Obligations.ClassesFollowTheBands : Prop :=
  ∀ (mark cell : BitVec 32) (st : DecoderState),
    classify Config.params.bands mark cell st =
      if 8500 < mark.toNat ∧ mark.toNat < 9500 then .startPulse
      else if mark.toNat < 520 ∨ 700 < mark.toNat then .pulseMalformed
      else if st = .preambleWait then
        if 4800 < cell.toNat ∧ cell.toNat < 5300 then .gapPreambleNormal
        else if 2800 < cell.toNat ∧ cell.toNat < 3300 then .gapPreambleRepeat
        else .gapOther
      else if st = .active then
        if 900 < cell.toNat ∧ cell.toNat < 1300 then .dataShort
        else if 2000 < cell.toNat ∧ cell.toNat < 2500 then .dataLong
        else .gapOther
      else .markIgnored

/-- 40_edge_classifier.md R69: a start pulse is never malformed, and which marks are. -/
def Obligations.MalformedMarksAreExactlyThese : Prop :=
  ∀ (mark cell : BitVec 32) (st : DecoderState),
    (classify Config.params.bands mark cell st = .startPulse ↔ 8500 < mark.toNat ∧ mark.toNat < 9500) ∧
    (classify Config.params.bands mark cell st = .pulseMalformed ↔
      mark.toNat < 520 ∨ (700 < mark.toNat ∧ mark.toNat ≤ 8500) ∨ 9500 ≤ mark.toNat)

/-- 40_edge_classifier.md R71: the classes each state can produce, at every width and for all bands. -/
def Obligations.EachStateProducesItsClasses : Prop :=
  ∀ (W : Nat) (b : Config.Bands) (mark cell : BitVec W) (st : DecoderState),
    classify b mark cell st ∈
      (match st with
        | .preambleWait =>
          [EdgeClass.startPulse, .pulseMalformed, .gapPreambleNormal, .gapPreambleRepeat, .gapOther]
        | .active => [EdgeClass.startPulse, .pulseMalformed, .dataShort, .dataLong, .gapOther]
        | .idle | .repeatFrame | .complete | .error => [EdgeClass.startPulse, .pulseMalformed, .markIgnored])

/-! ## The frame state machine -/

/-- 41_frame_state_machine.md R81. -/
def Obligations.StartPulseRestartsTheFrame : Prop :=
  ∀ (s : State) (t : Timestamp), s.regs.armed = true →
    8500 < (t - s.regs.lastFall).toNat → (t - s.regs.lastFall).toNat < 9500 →
    exec (.edgeRise t) s = .next
      { s with regs := { s.regs with lastRise := t, st := .preambleWait, bitIndex := 0 }, rsp := .silent }

/-- 41_frame_state_machine.md R82. -/
def Obligations.MalformedPulseEntersError : Prop :=
  ∀ (s : State) (t : Timestamp), s.regs.armed = true →
    ((t - s.regs.lastFall).toNat < 520 ∨
      (700 < (t - s.regs.lastFall).toNat ∧ (t - s.regs.lastFall).toNat ≤ 8500) ∨
      9500 ≤ (t - s.regs.lastFall).toNat) →
    exec (.edgeRise t) s = .next
      { s with regs := { s.regs with lastRise := t, st := .error, pending := false }, rsp := .silent }

/-- 41_frame_state_machine.md R83. -/
def Obligations.PreambleCellStartsTheBits : Prop :=
  ∀ (s : State) (t : Timestamp), s.regs.armed = true → s.regs.st = .preambleWait →
    520 ≤ (t - s.regs.lastFall).toNat → (t - s.regs.lastFall).toNat ≤ 700 →
    4800 < (t - s.regs.lastRise).toNat → (t - s.regs.lastRise).toNat < 5300 →
    exec (.edgeRise t) s = .next
      { s with regs := { s.regs with lastRise := t, st := .active, codeBits := 0 }, rsp := .silent }

/-- 41_frame_state_machine.md R84 (that `pending` is cleared: decision D7). -/
def Obligations.RepeatCellEntersRepeat : Prop :=
  ∀ (s : State) (t : Timestamp), s.regs.armed = true → s.regs.st = .preambleWait →
    520 ≤ (t - s.regs.lastFall).toNat → (t - s.regs.lastFall).toNat ≤ 700 →
    2800 < (t - s.regs.lastRise).toNat → (t - s.regs.lastRise).toNat < 3300 →
    exec (.edgeRise t) s = .next
      { s with regs := { s.regs with lastRise := t, st := .repeatFrame, pending := false }, rsp := .silent }

/-- 41_frame_state_machine.md R85 (decision D22). -/
def Obligations.OtherCellInPreambleIsANoOp : Prop :=
  ∀ (s : State) (t : Timestamp), s.regs.armed = true → s.regs.st = .preambleWait →
    520 ≤ (t - s.regs.lastFall).toNat → (t - s.regs.lastFall).toNat ≤ 700 →
    ¬(4800 < (t - s.regs.lastRise).toNat ∧ (t - s.regs.lastRise).toNat < 5300) →
    ¬(2800 < (t - s.regs.lastRise).toNat ∧ (t - s.regs.lastRise).toNat < 3300) →
    exec (.edgeRise t) s = .next { s with regs := { s.regs with lastRise := t }, rsp := .silent }

/-- 41_frame_state_machine.md R86 (that `pending` is cleared: decision D7). -/
def Obligations.OtherCellInActiveEntersError : Prop :=
  ∀ (s : State) (t : Timestamp), s.regs.armed = true → s.regs.st = .active →
    520 ≤ (t - s.regs.lastFall).toNat → (t - s.regs.lastFall).toNat ≤ 700 →
    ¬(900 < (t - s.regs.lastRise).toNat ∧ (t - s.regs.lastRise).toNat < 1300) →
    ¬(2000 < (t - s.regs.lastRise).toNat ∧ (t - s.regs.lastRise).toNat < 2500) →
    exec (.edgeRise t) s = .next
      { s with regs := { s.regs with lastRise := t, st := .error, pending := false }, rsp := .silent }

/-- 41_frame_state_machine.md R87, R88: a cell in a data band writes its bit at position `bitIndex`, leaves every
other bit of `codeBits` and adds one to `bitIndex`. Unless it is the 32nd bit, where R89 applies in the same step
(the next statement), nothing else changes. -/
def Obligations.DataCellAcceptsItsBit : Prop :=
  ∀ (s : State) (t : Timestamp) (b : Bool), s.regs.armed = true → s.regs.st = .active →
    520 ≤ (t - s.regs.lastFall).toNat → (t - s.regs.lastFall).toNat ≤ 700 →
    (if b then 2000 < (t - s.regs.lastRise).toNat ∧ (t - s.regs.lastRise).toNat < 2500
      else 900 < (t - s.regs.lastRise).toNat ∧ (t - s.regs.lastRise).toNat < 1300) →
    s.regs.bitIndex.toNat ≤ 31 →
    ∃ (u : State) (code : BitVec 32) (n : BitVec 6), exec (.edgeRise t) s = .next u ∧
      u.regs.codeBits = code ∧ u.regs.bitIndex = n ∧ n.toNat = s.regs.bitIndex.toNat + 1 ∧
      (∀ j < 32, code.getLsbD j = if j = s.regs.bitIndex.toNat then b else s.regs.codeBits.getLsbD j) ∧
      (s.regs.bitIndex.toNat < 31 →
        u = { s with
              regs := { s.regs with lastRise := t, codeBits := code, bitIndex := n }
              rsp := .silent })

/-- 41_frame_state_machine.md R89 (decision D15), 42_frame_validator.md R95, R96, R97 (that `pending` is cleared:
decision D7): the 32nd bit is accepted and the whole code checked in the same step; a code that passes is published
with this edge's timestamp, one that fails is not. -/
def Obligations.LastBitIsValidatedInItsStep : Prop :=
  ∀ (s : State) (t : Timestamp) (b : Bool), s.regs.armed = true → s.regs.st = .active →
    520 ≤ (t - s.regs.lastFall).toNat → (t - s.regs.lastFall).toNat ≤ 700 →
    (if b then 2000 < (t - s.regs.lastRise).toNat ∧ (t - s.regs.lastRise).toNat < 2500
      else 900 < (t - s.regs.lastRise).toNat ∧ (t - s.regs.lastRise).toNat < 1300) →
    s.regs.bitIndex = 31 →
    ∃ code : BitVec 32,
      (∀ j < 32, code.getLsbD j = if j = 31 then b else s.regs.codeBits.getLsbD j) ∧
      ((code ^^^ (code >>> 8)) &&& 0x00FF00FF = 0x00FF00FF →
        exec (.edgeRise t) s = .next
          { s with
            regs := { s.regs with lastRise := t, codeBits := code, bitIndex := 32, st := .complete,
                                  outCode := code, outTs := t, pending := true }
            rsp := .silent }) ∧
      ((code ^^^ (code >>> 8)) &&& 0x00FF00FF ≠ 0x00FF00FF →
        exec (.edgeRise t) s = .next
          { s with
            regs := { s.regs with lastRise := t, codeBits := code, bitIndex := 32, st := .error, pending := false }
            rsp := .silent })

/-- 41_frame_state_machine.md R90. -/
def Obligations.DataMarkOutsideAFrameIsIgnored : Prop :=
  ∀ (s : State) (t : Timestamp), s.regs.armed = true →
    s.regs.st ∈ [DecoderState.idle, .repeatFrame, .complete, .error] →
    520 ≤ (t - s.regs.lastFall).toNat → (t - s.regs.lastFall).toNat ≤ 700 →
    exec (.edgeRise t) s = .next { s with regs := { s.regs with lastRise := t }, rsp := .silent }

/-- 42_frame_validator.md R98: the two forms of the check agree; a passing code is fixed by B0 and B2, which are
free (so exactly `2^16` codes pass); and flipping one bit of a passing code makes it fail. -/
def Obligations.ComplementCheckIsTheByteForm : Prop :=
  (∀ code : BitVec 32, codeOk code = true ↔
    code.extractLsb' 0 8 = ~~~(code.extractLsb' 8 8) ∧ code.extractLsb' 16 8 = ~~~(code.extractLsb' 24 8)) ∧
  (∀ code : BitVec 32, codeOk code = true ↔
    ∃ b0 b2 : BitVec 8, code = (~~~b2 ++ b2 ++ ~~~b0 ++ b0 : BitVec 32)) ∧
  (∀ b0 b2 c0 c2 : BitVec 8,
    (~~~b2 ++ b2 ++ ~~~b0 ++ b0 : BitVec 32) = (~~~c2 ++ c2 ++ ~~~c0 ++ c0 : BitVec 32) → b0 = c0 ∧ b2 = c2) ∧
  (∀ (code : BitVec 32) (i : Nat), i < 32 → codeOk code = true → codeOk (code ^^^ (1#32 <<< i)) = false)

/-! ## Frames of the edge operations, and who writes `pending` -/

/-- 10_state.md R20's "written by" column and R25 to R28, R94: what an EDGE_FALL and an EDGE_RISE leave alone.
`codeBits` is written only in PreambleWait and Active, and the output register only in Active and together with the
entry to Complete. -/
def Obligations.EdgeOperationsWriteOnlyTheirRegisters : Prop :=
  (∀ (s : State) (t : Timestamp), ∃ u, exec (.edgeFall t) s = .next u ∧
    { u.regs with lastFall := s.regs.lastFall } = s.regs ∧
    u.waiting = s.waiting ∧ u.cycles = s.cycles ∧ u.draws = s.draws) ∧
  (∀ (s : State) (t : Timestamp), ∃ u, exec (.edgeRise t) s = .next u ∧
    u.regs.lastFall = s.regs.lastFall ∧ u.regs.armed = s.regs.armed ∧
    u.waiting = s.waiting ∧ u.cycles = s.cycles ∧ u.draws = s.draws ∧
    (u.regs.codeBits ≠ s.regs.codeBits → s.regs.st = .preambleWait ∨ s.regs.st = .active) ∧
    (u.regs.bitIndex ≠ s.regs.bitIndex → u.regs.st = .preambleWait ∨ s.regs.st = .active) ∧
    (u.regs.outCode ≠ s.regs.outCode ∨ u.regs.outTs ≠ s.regs.outTs →
      s.regs.st = .active ∧ u.regs.st = .complete))

/-- 10_state.md R29: `pending` is set only by a successful validation, and cleared only by a TAKE_CODE that returns
the code, by an entry to Error and by an entry to Repeat, all of which leave it 0. -/
def Obligations.PendingChangesOnlyAsStated : Prop :=
  ∀ (i : Instr) (s : State), ∃ u, exec i s = .next u ∧
    (s.regs.pending = false → u.regs.pending = true →
      ∃ t, i = .edgeRise t ∧ s.regs.st = .active ∧ u.regs.st = .complete ∧ codeOk u.regs.outCode = true ∧
        u.regs.outTs = t) ∧
    (s.regs.pending = true → u.regs.pending = false →
      (i = .takeCode ∧ u.rsp = .take true s.regs.outCode s.regs.outTs) ∨
      (∃ t, i = .edgeRise t ∧ (u.regs.st = .error ∨ u.regs.st = .repeatFrame))) ∧
    (u.regs.st = .error ∨ u.regs.st = .repeatFrame → u.regs.st ≠ s.regs.st → u.regs.pending = false)

/-! ## Invariants and whole-machine rules -/

/-- 10_state.md R33 at reset. -/
def Obligations.ResetMeetsTheInvariants : Prop := RegsInv State.reset.regs

/-- 10_state.md R33: every step, whatever is presented, keeps the invariants. -/
def Obligations.EveryStepKeepsTheInvariants : Prop :=
  ∀ s s' : State, RegsInv s.regs → step s = .next s' → RegsInv s'.regs

/-- 10_state.md R33: the invariants hold in every reachable state, with any inputs presented at any time. -/
def Obligations.ReachableStatesMeetTheInvariants : Prop :=
  ∀ s : State, Reachable s → RegsInv s.regs

/-- 43_polling_facade.md R105 at reset: the premise of HostOperationsLeaveTheDecoderAlone's second clause. -/
def Obligations.ResetMeetsTheUnarmedInvariant : Prop := UnarmedAtReset State.reset.regs

/-- 43_polling_facade.md R105 with 40_edge_classifier.md R65, R66 and 10_state.md R30: every step, whatever is
presented, keeps the registers at their reset values until INIT is performed. -/
def Obligations.EveryStepKeepsTheUnarmedRegistersAtReset : Prop :=
  ∀ s s' : State, UnarmedAtReset s.regs → step s = .next s' → UnarmedAtReset s'.regs

/-- 10_state.md R36 and R30, 70_reset_and_hazards.md R126: a step that is no reset never enters Idle and never
clears `armed`. -/
def Obligations.OnlyResetEntersIdleOrDisarms : Prop :=
  ∀ s s' : State, step s = .next s' →
    (s'.regs.st = .idle ∧ s.regs.st ≠ .idle) ∨ (s'.regs.armed = false ∧ s.regs.armed = true) →
    s.waiting = [] ∧ ∃ p ps, s.cycles = p :: ps ∧ p.rst = true

/-- 60_exceptions.md R117, 41_frame_state_machine.md R92: Error, Repeat and Complete are left only by a start pulse,
to PreambleWait, by a malformed pulse, to Error, and by a reset, to Idle. -/
def Obligations.TerminalStatesAreLeftOnlyByStartMalformedOrReset : Prop :=
  ∀ s s' : State, step s = .next s' →
    s.regs.st ∈ [DecoderState.error, .repeatFrame, .complete] → s'.regs.st ≠ s.regs.st →
    (s'.regs.st = .idle ∧ s.waiting = [] ∧ ∃ p ps, s.cycles = p :: ps ∧ p.rst = true) ∨
    (s.regs.armed = true ∧ s'.regs.armed = true ∧
      ((s'.regs.st = .preambleWait ∧ 8500 < (s'.regs.lastRise - s.regs.lastFall).toNat ∧
          (s'.regs.lastRise - s.regs.lastFall).toNat < 9500) ∨
       (s'.regs.st = .error ∧ s'.regs.pending = false ∧
          ((s'.regs.lastRise - s.regs.lastFall).toNat < 520 ∨
            (700 < (s'.regs.lastRise - s.regs.lastFall).toNat ∧
              (s'.regs.lastRise - s.regs.lastFall).toNat ≤ 8500) ∨
            9500 ≤ (s'.regs.lastRise - s.regs.lastFall).toNat))))

/-- 60_exceptions.md R112: there is no stuck state. From every armed state a start mark leads to PreambleWait with
no bits accepted. -/
def Obligations.StartPulseRecoversFromEveryState : Prop :=
  ∀ (s : State) (t d : Timestamp), s.regs.armed = true → 8500 < d.toNat → d.toNat < 9500 →
    ∃ u, execAll (markOps t d) s = .next u ∧ u.regs.st = .preambleWait ∧ u.regs.bitIndex = 0 ∧
      u.regs.pending = s.regs.pending ∧ u.regs.outCode = s.regs.outCode ∧ u.regs.outTs = s.regs.outTs

/-- 42_frame_validator.md R96: at every width and for all parameter values, the output register changes only to a
code that passes the check, is the whole accumulator, and carries the timestamp of the edge that completed it. -/
def Obligations.OnlyCheckedCodesArePublished : Prop :=
  ∀ (W : Nat) (c : Config.Params) (t : BitVec W) (r : Regs W),
    (edgeRise c t r).outCode ≠ r.outCode ∨ (edgeRise c t r).outTs ≠ r.outTs →
      codeOk (edgeRise c t r).outCode = true ∧ (edgeRise c t r).codeBits = (edgeRise c t r).outCode ∧
      (edgeRise c t r).outTs = t ∧ (edgeRise c t r).pending = true ∧ (edgeRise c t r).st = .complete ∧
      (edgeRise c t r).bitIndex = 32 ∧ r.st = .active

/-! ## Frames of the NEC protocol -/

/-- 40_edge_classifier.md R74, 20_memory.md R41, 42_frame_validator.md R96, R97, R99: from every armed state, the 34
marks of a frame, timed anywhere inside the bands, deliver its 32 bits least significant first: a code that passes
the check is published with the timestamp of the last rising edge, one that fails leaves the output register as it
was and `pending` clear (that a failed check clears it: decision D7, log 9). -/
def Obligations.WellTimedFrameDeliversItsCode : Prop :=
  ∀ (s : State) (p : Preamble) (ms : List DataMark) (last : DataMark) (code : Code),
    s.regs.armed = true → p.Marked → p.Normal → AllTimed p.rise ms → ms.length = 32 → ms.getLast? = some last →
    ms.map DataMark.bit = sentBits code →
    execAll (frameOps p ms) s = .next
      { s with
        regs := { st := if codeOk code then .complete else .error
                  bitIndex := 32, codeBits := code, lastFall := last.fall, lastRise := last.rise
                  outCode := if codeOk code then code else s.regs.outCode
                  outTs := if codeOk code then last.rise else s.regs.outTs
                  pending := codeOk code, armed := true }
        rsp := .silent }

/-- 40_edge_classifier.md R74, 41_frame_state_machine.md R84: from every armed state, a repeat frame ends in Repeat
after two marks; the last code stays in the registers and is no longer taken. -/
def Obligations.RepeatFrameKeepsTheLastCode : Prop :=
  ∀ (s : State) (p : Preamble), s.regs.armed = true → p.Marked → p.Repeated →
    execAll p.ops s = .next
      { s with
        regs := { s.regs with st := .repeatFrame, bitIndex := 0, lastFall := p.fall, lastRise := p.rise,
                              pending := false }
        rsp := .silent }

/-- 30_encoding.md R62: the macro `necframe` is a well-timed frame that carries its code, with 34 falling and 34
rising edges. -/
def Obligations.NecframeMacroIsWellTimed : Prop :=
  ∀ (t : Timestamp) (code : Code), ∃ (p : Preamble) (ms : List DataMark),
    necframeOps t code = frameOps p ms ∧ p.Marked ∧ p.Normal ∧ AllTimed p.rise ms ∧
    ms.map DataMark.bit = sentBits code ∧ p.startFall = t ∧ (necframeOps t code).length = 68

/-- 43_polling_facade.md R103, R104 after 30_encoding.md R62's frame: from every armed state a frame with a good
code is taken exactly once, and a frame with a bad one is not taken at all (that a failed check leaves nothing to take:
decision D7, log 9). -/
def Obligations.NecframeIsTakenExactlyOnce : Prop :=
  ∀ (s : State) (t : Timestamp) (code : Code), s.regs.armed = true →
    ∃ u v w, execAll (necframeOps t code) s = .next u ∧ exec .takeCode u = .next v ∧ exec .takeCode v = .next w ∧
      u.regs.st = (if codeOk code then .complete else .error) ∧
      (codeOk code = true → v.rsp = .take true code u.regs.lastRise) ∧
      (codeOk code = false → v.rsp.rspV = some false) ∧ w.rsp.rspV = some false

/-! ## What does not matter -/

/-- 41_frame_state_machine.md R94 and 10_state.md R24, R32: the accumulator's value outside a frame is not
observable. Two machines that differ only there step alike: the same refusal, or a next state with the same response,
and again they differ only there. -/
def Obligations.StaleAccumulatorIsUnobservable : Prop :=
  ∀ (s : State) (r : Regs Config.tsWidth), SameToTheHost s.regs r →
    (∀ t, step s = .next t →
      ∃ u, step { s with regs := r } = .next { t with regs := u } ∧ SameToTheHost t.regs u) ∧
    (∀ why, step s = .refused why → step { s with regs := r } = .refused why)

/-- 00_scope.md R9 and 70_reset_and_hazards.md R133: a constant offset of all timestamps cancels out, at every width
and for all parameter values; only the published timestamp carries it. -/
def Obligations.OnlyTimestampDifferencesMatter : Prop :=
  ∀ (W : Nat) (c : Config.Params) (t d : BitVec W) (r : Regs W),
    { edgeRise c (t + d) (shiftEdges d r) with outTs := 0 } =
      { shiftEdges d (edgeRise c t r) with outTs := 0 }

/-- 93_implementation_defined.md U3: at a rising edge, which of its values `pending_policy` has shows in `pending`
alone, at every width and value of the other parameters. (What it does to TAKE_CODE is in the next statement.) It is
about the parameters, not about `exec` (log 9). -/
def Obligations.PendingPolicyTouchesOnlyPending : Prop :=
  ∀ (W : Nat) (c : Config.Params) (q : Config.PendingPolicy) (t : BitVec W) (r : Regs W) (p : Bool),
    { edgeRise { c with pendingPolicy := q } t { r with pending := p } with pending := false } =
      { edgeRise c t r with pending := false }

/-- 93_implementation_defined.md U2, U3: the values of the two parameters that are not the default. This is about
the parameters of the shared operations, not about `exec`, which runs with the defaults. How each value is read is
the model's (log 9). -/
def Obligations.ParameterValuesChooseTheOpenBehaviour : Prop :=
  ∀ (W : Nat) (c : Config.Params) (t : BitVec W) (r : Regs W),
    (c.preambleGapOther = .error → r.st = .preambleWait → (fsmStep c .gapOther t r).st = .error) ∧
    (c.pendingPolicy = .clearOnMalformedOnly → r.st = .preambleWait →
      (fsmStep c .gapPreambleRepeat t r).pending = r.pending ∧ (fsmStep c .pulseMalformed t r).pending = false) ∧
    (c.pendingPolicy = .takeOnlyInComplete → r.st ≠ .complete → (takeResponse c r).rspV = some false)
end

