-- ==== Sys2Proof/Laws/Decode.lean ====
section
/-! SUPPORT. The decoder and the encoder, field by field. -/
namespace Sys2Proof

/-- The `OP` field of a word is its value over `2^W_T`. -/
theorem fieldsOf_op_toNat (w : OpWord) : (fieldsOf w).op.toNat = w.toNat / 2 ^ Config.tsWidth := by
  have h := w.isLt
  simp only [fieldsOf, BitVec.extractLsb'_toNat, Nat.shiftRight_eq_div_pow, Config.tsWidth] at *
  omega

/-- The `T` field of a word is its value modulo `2^W_T`. -/
theorem fieldsOf_t_toNat (w : OpWord) : (fieldsOf w).t.toNat = w.toNat % 2 ^ Config.tsWidth := by
  simp [fieldsOf, BitVec.extractLsb'_toNat]

/-- A word's value, from its two fields. -/
theorem toNat_of_fieldsOf (w : OpWord) :
    w.toNat = (fieldsOf w).op.toNat * 2 ^ Config.tsWidth + (fieldsOf w).t.toNat := by
  rw [fieldsOf_op_toNat, fieldsOf_t_toNat, Nat.div_add_mod']

/-- The value of an instruction's word, from the two fields of the table (30_encoding.md R52). -/
theorem encode_toNat (i : Instr) : (encode i).toNat = i.raw.op.toNat * 2 ^ Config.tsWidth + i.raw.t.toNat := by
  rw [encode, BitVec.toNat_append, ← Nat.shiftLeft_add_eq_or_of_lt i.raw.t.isLt, Nat.shiftLeft_eq]

/-- The encoder puts the table's fields where the decoder looks for them. -/
theorem fieldsOf_encode (i : Instr) : fieldsOf (encode i) = i.raw := by
  have ht := i.raw.t.isLt
  have h1 : (fieldsOf (encode i)).op = i.raw.op := by
    apply BitVec.eq_of_toNat_eq
    rw [fieldsOf_op_toNat, encode_toNat, Nat.mul_comm, Nat.mul_add_div (by positivity), Nat.div_eq_of_lt ht,
      Nat.add_zero]
  have h2 : (fieldsOf (encode i)).t = i.raw.t := by
    apply BitVec.eq_of_toNat_eq
    rw [fieldsOf_t_toNat, encode_toNat, Nat.mul_comm, Nat.mul_add_mod, Nat.mod_eq_of_lt ht]
  rw [show fieldsOf (encode i) = ⟨(fieldsOf (encode i)).op, (fieldsOf (encode i)).t⟩ from rfl, h1, h2]

/-- The decoder reads an instruction's own fields back. -/
theorem decodeRaw_raw (i : Instr) : decodeRaw i.raw = .ok i := by
  cases i <;> simp [Instr.raw, decodeRaw]

/-- R56's first kind. -/
theorem decodeRaw_reserved_op {r : RawOp} (h : 6 ≤ r.op.toNat) : decodeRaw r = .error (.opcode r.op) := by
  have h1 : r.op ≠ 1 := by rintro h'; simp [h'] at h
  have h2 : r.op ≠ 2 := by rintro h'; simp [h'] at h
  rw [decodeRaw, if_neg h1, if_neg h2, if_pos (by omega)]

/-- R56's second kind. -/
theorem decodeRaw_reserved_operand {r : RawOp} (h : r.op.toNat ∈ [0, 3, 4, 5]) (ht : r.t ≠ 0) :
    decodeRaw r = .error (.operand r.op r.t) := by
  have h1 : r.op ≠ 1 := by rintro h'; simp [h'] at h
  have h2 : r.op ≠ 2 := by rintro h'; simp [h'] at h
  have h3 : ¬5 < r.op.toNat := by simp at h; omega
  rw [decodeRaw, if_neg h1, if_neg h2, if_neg h3, if_pos ht]

/-- Two words with the same fields are the same word. -/
theorem fieldsOf_injective {w w' : OpWord} (h : fieldsOf w = fieldsOf w') : w = w' := by
  apply BitVec.eq_of_toNat_eq
  rw [toNat_of_fieldsOf w, toNat_of_fieldsOf w', h]

/-- The decoder accepts exactly the well-formed words (30_encoding.md R55, R56). -/
theorem decodeRaw_isOk_iff (r : RawOp) : (∃ i, decodeRaw r = .ok i) ↔ r.wellFormed = true := by
  obtain ⟨op, t⟩ := r
  have key : ∀ n : Fin 16, (∃ i, decodeRaw ⟨BitVec.ofFin n, t⟩ = .ok i) ↔
      RawOp.wellFormed ⟨BitVec.ofFin n, t⟩ = true := by
    intro n
    by_cases ht : t = 0#Config.tsWidth <;> fin_cases n <;>
      simp [decodeRaw, RawOp.wellFormed, RawOp.opDefined, RawOp.operandDefined, RawOp.isEdge, ht]
  exact key op.toFin

end Sys2Proof
end

