-- ==== Sys2Proof/Laws/PerInstr.lean ====
section
/-! SUPPORT. Per-instruction laws, one lemma for each constructor of Instr. -/

/-- The value of each instruction's word, from spec/opcode_table.json: `match` plus the operand. -/
def Sys2Proof.Laws.TableWord.Statement (i : Sys2Proof.Instr) : Prop :=
  (Sys2Proof.encode i).toNat = match i with
    | .nop        => 0x000000000
    | .edgeFall t => 0x100000000 + t.toNat
    | .edgeRise t => 0x200000000 + t.toNat
    | .init       => 0x300000000
    | .getState   => 0x400000000
    | .takeCode   => 0x500000000

theorem Sys2Proof.Laws.TableWord.nop : Sys2Proof.Laws.TableWord.Statement .nop := by
  simp [Statement, encode_toNat, Instr.raw, Config.tsWidth]

theorem Sys2Proof.Laws.TableWord.edgeFall (t : Sys2Proof.Timestamp) :
    Sys2Proof.Laws.TableWord.Statement (.edgeFall t) := by
  simp [Statement, encode_toNat, Instr.raw, Config.tsWidth]

theorem Sys2Proof.Laws.TableWord.edgeRise (t : Sys2Proof.Timestamp) :
    Sys2Proof.Laws.TableWord.Statement (.edgeRise t) := by
  simp [Statement, encode_toNat, Instr.raw, Config.tsWidth]

theorem Sys2Proof.Laws.TableWord.init : Sys2Proof.Laws.TableWord.Statement .init := by
  simp [Statement, encode_toNat, Instr.raw, Config.tsWidth]

theorem Sys2Proof.Laws.TableWord.getState : Sys2Proof.Laws.TableWord.Statement .getState := by
  simp [Statement, encode_toNat, Instr.raw, Config.tsWidth]

theorem Sys2Proof.Laws.TableWord.takeCode : Sys2Proof.Laws.TableWord.Statement .takeCode := by
  simp [Statement, encode_toNat, Instr.raw, Config.tsWidth]
end

