-- ==== Sys2Proof/Laws/State.lean ====
section
/-! SUPPORT. One lemma for each field under each update of the registers and of the state, all by `rfl`, so that no proof
unfolds a record update. -/
namespace Sys2Proof.Machine

variable {W : Nat}

@[simp] theorem Regs.dropPending_st (clear : Bool) (r : Regs W) : (r.dropPending clear).st = r.st := rfl
@[simp] theorem Regs.dropPending_bitIndex (clear : Bool) (r : Regs W) :
    (r.dropPending clear).bitIndex = r.bitIndex := rfl
@[simp] theorem Regs.dropPending_codeBits (clear : Bool) (r : Regs W) :
    (r.dropPending clear).codeBits = r.codeBits := rfl
@[simp] theorem Regs.dropPending_lastFall (clear : Bool) (r : Regs W) :
    (r.dropPending clear).lastFall = r.lastFall := rfl
@[simp] theorem Regs.dropPending_lastRise (clear : Bool) (r : Regs W) :
    (r.dropPending clear).lastRise = r.lastRise := rfl
@[simp] theorem Regs.dropPending_outCode (clear : Bool) (r : Regs W) :
    (r.dropPending clear).outCode = r.outCode := rfl
@[simp] theorem Regs.dropPending_outTs (clear : Bool) (r : Regs W) : (r.dropPending clear).outTs = r.outTs := rfl
@[simp] theorem Regs.dropPending_pending (clear : Bool) (r : Regs W) :
    (r.dropPending clear).pending = (!clear && r.pending) := rfl
@[simp] theorem Regs.dropPending_armed (clear : Bool) (r : Regs W) : (r.dropPending clear).armed = r.armed := rfl

@[simp] theorem Regs.enterError_st (clear : Bool) (r : Regs W) : (r.enterError clear).st = .error := rfl
@[simp] theorem Regs.enterError_bitIndex (clear : Bool) (r : Regs W) :
    (r.enterError clear).bitIndex = r.bitIndex := rfl
@[simp] theorem Regs.enterError_codeBits (clear : Bool) (r : Regs W) :
    (r.enterError clear).codeBits = r.codeBits := rfl
@[simp] theorem Regs.enterError_lastFall (clear : Bool) (r : Regs W) :
    (r.enterError clear).lastFall = r.lastFall := rfl
@[simp] theorem Regs.enterError_lastRise (clear : Bool) (r : Regs W) :
    (r.enterError clear).lastRise = r.lastRise := rfl
@[simp] theorem Regs.enterError_outCode (clear : Bool) (r : Regs W) : (r.enterError clear).outCode = r.outCode := rfl
@[simp] theorem Regs.enterError_outTs (clear : Bool) (r : Regs W) : (r.enterError clear).outTs = r.outTs := rfl
@[simp] theorem Regs.enterError_pending (clear : Bool) (r : Regs W) :
    (r.enterError clear).pending = (!clear && r.pending) := rfl
@[simp] theorem Regs.enterError_armed (clear : Bool) (r : Regs W) : (r.enterError clear).armed = r.armed := rfl

@[simp] theorem Regs.enterRepeat_st (clear : Bool) (r : Regs W) : (r.enterRepeat clear).st = .repeatFrame := rfl
@[simp] theorem Regs.enterRepeat_bitIndex (clear : Bool) (r : Regs W) :
    (r.enterRepeat clear).bitIndex = r.bitIndex := rfl
@[simp] theorem Regs.enterRepeat_codeBits (clear : Bool) (r : Regs W) :
    (r.enterRepeat clear).codeBits = r.codeBits := rfl
@[simp] theorem Regs.enterRepeat_lastFall (clear : Bool) (r : Regs W) :
    (r.enterRepeat clear).lastFall = r.lastFall := rfl
@[simp] theorem Regs.enterRepeat_lastRise (clear : Bool) (r : Regs W) :
    (r.enterRepeat clear).lastRise = r.lastRise := rfl
@[simp] theorem Regs.enterRepeat_outCode (clear : Bool) (r : Regs W) :
    (r.enterRepeat clear).outCode = r.outCode := rfl
@[simp] theorem Regs.enterRepeat_outTs (clear : Bool) (r : Regs W) : (r.enterRepeat clear).outTs = r.outTs := rfl
@[simp] theorem Regs.enterRepeat_pending (clear : Bool) (r : Regs W) :
    (r.enterRepeat clear).pending = (!clear && r.pending) := rfl
@[simp] theorem Regs.enterRepeat_armed (clear : Bool) (r : Regs W) : (r.enterRepeat clear).armed = r.armed := rfl

@[simp] theorem Regs.startFrame_st (r : Regs W) : (r.startFrame).st = .preambleWait := rfl
@[simp] theorem Regs.startFrame_bitIndex (r : Regs W) : (r.startFrame).bitIndex = 0 := rfl
@[simp] theorem Regs.startFrame_codeBits (r : Regs W) : (r.startFrame).codeBits = r.codeBits := rfl
@[simp] theorem Regs.startFrame_lastFall (r : Regs W) : (r.startFrame).lastFall = r.lastFall := rfl
@[simp] theorem Regs.startFrame_lastRise (r : Regs W) : (r.startFrame).lastRise = r.lastRise := rfl
@[simp] theorem Regs.startFrame_outCode (r : Regs W) : (r.startFrame).outCode = r.outCode := rfl
@[simp] theorem Regs.startFrame_outTs (r : Regs W) : (r.startFrame).outTs = r.outTs := rfl
@[simp] theorem Regs.startFrame_pending (r : Regs W) : (r.startFrame).pending = r.pending := rfl
@[simp] theorem Regs.startFrame_armed (r : Regs W) : (r.startFrame).armed = r.armed := rfl

@[simp] theorem Regs.startBits_st (r : Regs W) : (r.startBits).st = .active := rfl
@[simp] theorem Regs.startBits_bitIndex (r : Regs W) : (r.startBits).bitIndex = r.bitIndex := rfl
@[simp] theorem Regs.startBits_codeBits (r : Regs W) : (r.startBits).codeBits = 0 := rfl
@[simp] theorem Regs.startBits_lastFall (r : Regs W) : (r.startBits).lastFall = r.lastFall := rfl
@[simp] theorem Regs.startBits_lastRise (r : Regs W) : (r.startBits).lastRise = r.lastRise := rfl
@[simp] theorem Regs.startBits_outCode (r : Regs W) : (r.startBits).outCode = r.outCode := rfl
@[simp] theorem Regs.startBits_outTs (r : Regs W) : (r.startBits).outTs = r.outTs := rfl
@[simp] theorem Regs.startBits_pending (r : Regs W) : (r.startBits).pending = r.pending := rfl
@[simp] theorem Regs.startBits_armed (r : Regs W) : (r.startBits).armed = r.armed := rfl

@[simp] theorem Regs.takeBit_st (b : Bool) (r : Regs W) : (r.takeBit b).st = r.st := rfl
@[simp] theorem Regs.takeBit_bitIndex (b : Bool) (r : Regs W) : (r.takeBit b).bitIndex = r.bitIndex + 1 := rfl
@[simp] theorem Regs.takeBit_codeBits (b : Bool) (r : Regs W) :
    (r.takeBit b).codeBits = insertBit r.codeBits r.bitIndex b := rfl
@[simp] theorem Regs.takeBit_lastFall (b : Bool) (r : Regs W) : (r.takeBit b).lastFall = r.lastFall := rfl
@[simp] theorem Regs.takeBit_lastRise (b : Bool) (r : Regs W) : (r.takeBit b).lastRise = r.lastRise := rfl
@[simp] theorem Regs.takeBit_outCode (b : Bool) (r : Regs W) : (r.takeBit b).outCode = r.outCode := rfl
@[simp] theorem Regs.takeBit_outTs (b : Bool) (r : Regs W) : (r.takeBit b).outTs = r.outTs := rfl
@[simp] theorem Regs.takeBit_pending (b : Bool) (r : Regs W) : (r.takeBit b).pending = r.pending := rfl
@[simp] theorem Regs.takeBit_armed (b : Bool) (r : Regs W) : (r.takeBit b).armed = r.armed := rfl

@[simp] theorem Regs.publish_st (code : BitVec 32) (t : BitVec W) (r : Regs W) :
    (r.publish code t).st = .complete := rfl
@[simp] theorem Regs.publish_bitIndex (code : BitVec 32) (t : BitVec W) (r : Regs W) :
    (r.publish code t).bitIndex = r.bitIndex := rfl
@[simp] theorem Regs.publish_codeBits (code : BitVec 32) (t : BitVec W) (r : Regs W) :
    (r.publish code t).codeBits = r.codeBits := rfl
@[simp] theorem Regs.publish_lastFall (code : BitVec 32) (t : BitVec W) (r : Regs W) :
    (r.publish code t).lastFall = r.lastFall := rfl
@[simp] theorem Regs.publish_lastRise (code : BitVec 32) (t : BitVec W) (r : Regs W) :
    (r.publish code t).lastRise = r.lastRise := rfl
@[simp] theorem Regs.publish_outCode (code : BitVec 32) (t : BitVec W) (r : Regs W) :
    (r.publish code t).outCode = code := rfl
@[simp] theorem Regs.publish_outTs (code : BitVec 32) (t : BitVec W) (r : Regs W) :
    (r.publish code t).outTs = t := rfl
@[simp] theorem Regs.publish_pending (code : BitVec 32) (t : BitVec W) (r : Regs W) :
    (r.publish code t).pending = true := rfl
@[simp] theorem Regs.publish_armed (code : BitVec 32) (t : BitVec W) (r : Regs W) :
    (r.publish code t).armed = r.armed := rfl

@[simp] theorem Regs.reject_st (c : Config.Params) (r : Regs W) : (r.reject c).st = .error := rfl
@[simp] theorem Regs.reject_bitIndex (c : Config.Params) (r : Regs W) : (r.reject c).bitIndex = r.bitIndex := rfl
@[simp] theorem Regs.reject_codeBits (c : Config.Params) (r : Regs W) : (r.reject c).codeBits = r.codeBits := rfl
@[simp] theorem Regs.reject_lastFall (c : Config.Params) (r : Regs W) : (r.reject c).lastFall = r.lastFall := rfl
@[simp] theorem Regs.reject_lastRise (c : Config.Params) (r : Regs W) : (r.reject c).lastRise = r.lastRise := rfl
@[simp] theorem Regs.reject_outCode (c : Config.Params) (r : Regs W) : (r.reject c).outCode = r.outCode := rfl
@[simp] theorem Regs.reject_outTs (c : Config.Params) (r : Regs W) : (r.reject c).outTs = r.outTs := rfl
@[simp] theorem Regs.reject_pending (c : Config.Params) (r : Regs W) :
    (r.reject c).pending = (!clearsPending c.pendingPolicy && r.pending) := rfl
@[simp] theorem Regs.reject_armed (c : Config.Params) (r : Regs W) : (r.reject c).armed = r.armed := rfl

@[simp] theorem Regs.reset_st (c : Config.Params) : (Regs.reset c : Regs W).st = .idle := rfl
@[simp] theorem Regs.reset_armed (c : Config.Params) : (Regs.reset c : Regs W).armed = false := rfl
@[simp] theorem Regs.reset_pending (c : Config.Params) : (Regs.reset c : Regs W).pending = false := rfl

@[simp] theorem State.finish_regs (s : State) (r : Regs Config.tsWidth) (rsp : Response Config.tsWidth) :
    (s.finish r rsp).regs = r := rfl
@[simp] theorem State.finish_rsp (s : State) (r : Regs Config.tsWidth) (rsp : Response Config.tsWidth) :
    (s.finish r rsp).rsp = rsp := rfl
@[simp] theorem State.finish_waiting (s : State) (r : Regs Config.tsWidth) (rsp : Response Config.tsWidth) :
    (s.finish r rsp).waiting = s.waiting := rfl
@[simp] theorem State.finish_cycles (s : State) (r : Regs Config.tsWidth) (rsp : Response Config.tsWidth) :
    (s.finish r rsp).cycles = s.cycles := rfl
@[simp] theorem State.finish_draws (s : State) (r : Regs Config.tsWidth) (rsp : Response Config.tsWidth) :
    (s.finish r rsp).draws = s.draws := rfl

@[simp] theorem State.resetBlock_regs (s : State) : (s.resetBlock).regs = Regs.reset Config.params := rfl
@[simp] theorem State.resetBlock_rsp (s : State) : (s.resetBlock).rsp = .silent := rfl
@[simp] theorem State.resetBlock_waiting (s : State) : (s.resetBlock).waiting = s.waiting := rfl
@[simp] theorem State.resetBlock_cycles (s : State) : (s.resetBlock).cycles = s.cycles := rfl
@[simp] theorem State.resetBlock_draws (s : State) : (s.resetBlock).draws = s.draws := rfl

@[simp] theorem State.sample_regs (s : State) (p : InPorts) (ps : List InPorts) : (s.sample p ps).regs = s.regs := rfl
@[simp] theorem State.sample_rsp (s : State) (p : InPorts) (ps : List InPorts) : (s.sample p ps).rsp = s.rsp := rfl
@[simp] theorem State.sample_waiting (s : State) (p : InPorts) (ps : List InPorts) :
    (s.sample p ps).waiting = cycleRequests (Config.edgeFirst s.draws) p := rfl
@[simp] theorem State.sample_cycles (s : State) (p : InPorts) (ps : List InPorts) : (s.sample p ps).cycles = ps := rfl
@[simp] theorem State.sample_draws (s : State) (p : InPorts) (ps : List InPorts) :
    (s.sample p ps).draws = (if p.edgeValid && p.hostValid then s.draws + 1 else s.draws) := rfl

@[simp] theorem State.presentCycle_regs (s : State) (p : InPorts) : (s.presentCycle p).regs = s.regs := rfl
@[simp] theorem State.presentCycle_rsp (s : State) (p : InPorts) : (s.presentCycle p).rsp = s.rsp := rfl
@[simp] theorem State.presentCycle_waiting (s : State) (p : InPorts) : (s.presentCycle p).waiting = s.waiting := rfl
@[simp] theorem State.presentCycle_cycles (s : State) (p : InPorts) :
    (s.presentCycle p).cycles = s.cycles ++ [p] := rfl
@[simp] theorem State.presentCycle_draws (s : State) (p : InPorts) : (s.presentCycle p).draws = s.draws := rfl

@[simp] theorem State.presentWord_regs (s : State) (w : OpWord) : (s.presentWord w).regs = s.regs := rfl
@[simp] theorem State.presentWord_rsp (s : State) (w : OpWord) : (s.presentWord w).rsp = s.rsp := rfl
@[simp] theorem State.presentWord_waiting (s : State) (w : OpWord) :
    (s.presentWord w).waiting = s.waiting ++ [.word w] := rfl
@[simp] theorem State.presentWord_cycles (s : State) (w : OpWord) : (s.presentWord w).cycles = s.cycles := rfl
@[simp] theorem State.presentWord_draws (s : State) (w : OpWord) : (s.presentWord w).draws = s.draws := rfl

@[simp] theorem State.withFetchWord_regs (s : State) (nbits w : Nat) : (s.withFetchWord nbits w).regs = s.regs := rfl
@[simp] theorem State.withFetchWord_rsp (s : State) (nbits w : Nat) : (s.withFetchWord nbits w).rsp = s.rsp := rfl
@[simp] theorem State.withFetchWord_waiting (s : State) (nbits w : Nat) :
    (s.withFetchWord nbits w).waiting = .word (tableWord nbits w) :: s.waiting := rfl
@[simp] theorem State.withFetchWord_cycles (s : State) (nbits w : Nat) :
    (s.withFetchWord nbits w).cycles = s.cycles := rfl
@[simp] theorem State.withFetchWord_draws (s : State) (nbits w : Nat) :
    (s.withFetchWord nbits w).draws = s.draws := rfl

/-- Finishing twice is finishing with the last values. -/
@[simp] theorem State.finish_finish (s : State) (r r' : Regs Config.tsWidth) (q q' : Response Config.tsWidth) :
    (s.finish r q).finish r' q' = s.finish r' q' := rfl

end Sys2Proof.Machine
end

