-- ==== Sys2Proof/Laws/Ports.lean ====
section
/-! SUPPORT. The response word's fields, and what a cycle's requests are. -/
namespace Sys2Proof.Machine

variable {W : Nat}

/-- The three fields of `RSP_TAKE` stand where 30_encoding.md R57 puts them. -/
theorem takeWord_fields (v : Bool) (code : BitVec 32) (ts : BitVec W) :
    (BitVec.ofBool v ++ code ++ ts).getLsbD (W + 32) = v ∧
      (BitVec.ofBool v ++ code ++ ts).extractLsb' W 32 = code ∧
      (BitVec.ofBool v ++ code ++ ts).extractLsb' 0 W = ts := by
  refine ⟨?_, ?_, ?_⟩
  · rw [BitVec.getLsbD_append, if_neg (by omega), Nat.add_sub_cancel_left, BitVec.getLsbD_append, if_neg (by omega)]
    simp
  · apply BitVec.eq_of_getLsbD_eq
    intro i hi
    rw [BitVec.getLsbD_extractLsb', BitVec.getLsbD_append, if_neg (by omega), Nat.add_sub_cancel_left,
      BitVec.getLsbD_append, if_pos hi]
    simp [hi]
  · apply BitVec.eq_of_getLsbD_eq
    intro i hi
    simp [BitVec.getLsbD_append, hi]

/-- A cycle presents the same requests in either order (20_memory.md R47). -/
theorem mem_cycleRequests (edgeFirst : Bool) (p : InPorts) (q : Request) :
    q ∈ cycleRequests edgeFirst p ↔ q ∈ edgeRequests p ∨ q ∈ hostRequests p := by
  rw [cycleRequests]
  split <;> simp [or_comm]

end Sys2Proof.Machine
end

