-- ==== Sys2Proof/Laws/Registers.lean ====
section
/-! SUPPORT. What the shared operations on the registers can do: durations, `pending`, bit insertion, the
classifier, the state machine. Proofs cite these lemmas instead of unfolding the operations. -/
namespace Sys2Proof.Machine

variable {W : Nat}

/-! ### Durations (00_scope.md R9) -/

/-- A constant offset cancels out of a duration. -/
theorem duration_add_add (a b d : BitVec W) : duration (a + d) (b + d) = duration a b := by
  simp only [duration, BitVec.sub_eq_add_neg, BitVec.neg_add]
  rw [BitVec.add_assoc, ← BitVec.add_assoc d, BitVec.add_comm d, BitVec.add_assoc, ← BitVec.sub_eq_add_neg,
    BitVec.sub_self, BitVec.add_zero]

@[simp] theorem inOpen_iff (lo hi : Nat) (d : BitVec W) : inOpen lo hi d = true ↔ lo < d.toNat ∧ d.toNat < hi := by
  simp [inOpen]

/-! ### `pending` (10_state.md R29) -/

/-- With no code pending there is nothing to drop. -/
theorem Regs.dropPending_of_not_pending {r : Regs W} (h : r.pending = false) (clear : Bool) :
    r.dropPending clear = r := by
  obtain ⟨_, _, _, _, _, _, _, pending, _⟩ := r
  cases h
  simp [Regs.dropPending]

/-! ### Bit insertion (41_frame_state_machine.md R80) -/

/-- The bit at `bitIndex` is the inserted one, and every other bit stays. -/
theorem insertBit_getLsbD (code : BitVec 32) (i : BitVec 6) (b : Bool) (j : Nat) (hj : j < 32) :
    (insertBit code i b).getLsbD j = if j = i.toNat then b else code.getLsbD j := by
  simp only [insertBit, BitVec.getLsbD_or, BitVec.getLsbD_and, BitVec.getLsbD_not, BitVec.getLsbD_shiftLeft,
    BitVec.getLsbD_setWidth, BitVec.getLsbD_one, BitVec.getLsbD_ofBool, hj]
  rcases lt_trichotomy j i.toNat with h | h | h
  · simp [h, h.ne]
  · subst h; simp [show 0 < 32 by omega]
  · have h0 : j - i.toNat ≠ 0 := by omega
    have h1 : ¬ j < i.toNat := by omega
    have h2 : j ≠ i.toNat := by omega
    simp [h0, h1, h2, hj]

/-! ### The classifier (40_edge_classifier.md R68) -/

/-- A mark in the start-pulse band decides alone. -/
theorem classify_start {b : Config.Bands} {mark : BitVec W} (h : b.startLo < mark.toNat ∧ mark.toNat < b.startHi)
    (cell : BitVec W) (st : DecoderState) : classify b mark cell st = .startPulse := by
  simp [classify, h]

/-- A mark outside the start-pulse band and outside the data-mark band decides alone. -/
theorem classify_malformed {b : Config.Bands} {mark : BitVec W}
    (h : ¬(b.startLo < mark.toNat ∧ mark.toNat < b.startHi)) (h' : mark.toNat < b.markLo ∨ b.markHi < mark.toNat)
    (cell : BitVec W) (st : DecoderState) : classify b mark cell st = .pulseMalformed := by
  simp [classify, h, h']

/-- A data mark: the cell and the state decide. -/
theorem classify_data {b : Config.Bands} {mark : BitVec W}
    (h : ¬(b.startLo < mark.toNat ∧ mark.toNat < b.startHi)) (h' : ¬(mark.toNat < b.markLo ∨ b.markHi < mark.toNat))
    (cell : BitVec W) (st : DecoderState) :
    classify b mark cell st =
      if st = .preambleWait then
        if inOpen b.preLo b.preHi cell then .gapPreambleNormal
        else if inOpen b.repLo b.repHi cell then .gapPreambleRepeat else .gapOther
      else if st = .active then
        if inOpen b.zeroLo b.zeroHi cell then .dataShort
        else if inOpen b.oneLo b.oneHi cell then .dataLong else .gapOther
      else .markIgnored := by
  cases st <;> simp [classify, h, h']

/-- A data mark with the bands of 00_scope.md R6. -/
theorem classify_data_source {mark : BitVec W} (h : 520 ≤ mark.toNat) (h' : mark.toNat ≤ 700) (cell : BitVec W)
    (st : DecoderState) :
    classify Config.Bands.source mark cell st =
      if st = .preambleWait then
        if 4800 < cell.toNat ∧ cell.toNat < 5300 then .gapPreambleNormal
        else if 2800 < cell.toNat ∧ cell.toNat < 3300 then .gapPreambleRepeat else .gapOther
      else if st = .active then
        if 900 < cell.toNat ∧ cell.toNat < 1300 then .dataShort
        else if 2000 < cell.toNat ∧ cell.toNat < 2500 then .dataLong else .gapOther
      else .markIgnored := by
  rw [classify_data (by simp only [Config.Bands.source]; omega) (by simp only [Config.Bands.source]; omega)]
  simp [Config.Bands.source]

/-! ### The complement check (42_frame_validator.md R95) -/

/-- The check, bit by bit: B0 against B1 and B2 against B3. -/
theorem codeOk_iff_bits (code : BitVec 32) : codeOk code = true ↔
    ∀ i < 8, code.getLsbD i = !code.getLsbD (8 + i) ∧ code.getLsbD (16 + i) = !code.getLsbD (24 + i) := by
  have mask : ∀ i < 32, Config.validMask.getLsbD i = (decide (i < 8) || decide (16 ≤ i) && decide (i < 24)) := by
    decide
  have bit : ∀ i, ((code ^^^ (code >>> 8)) &&& Config.validMask).getLsbD i =
      ((code.getLsbD i ^^ code.getLsbD (8 + i)) && Config.validMask.getLsbD i) := by
    intro i
    rw [BitVec.getLsbD_and, BitVec.getLsbD_xor, BitVec.getLsbD_ushiftRight]
  simp only [codeOk, beq_iff_eq]
  constructor
  · intro h i hi
    have h1 := congrArg (·.getLsbD i) h
    have h2 := congrArg (·.getLsbD (16 + i)) h
    simp only [bit, mask i (by omega), mask (16 + i) (by omega)] at h1 h2
    rw [← Nat.add_assoc] at h2
    simp [hi, show 16 + i < 24 by omega] at h1 h2
    constructor
    · revert h1; cases code.getLsbD i <;> cases code.getLsbD (8 + i) <;> simp
    · revert h2; cases code.getLsbD (16 + i) <;> cases code.getLsbD (24 + i) <;> simp
  · intro h
    apply BitVec.eq_of_getLsbD_eq
    intro i hi
    rw [bit, mask i hi]
    by_cases h8 : i < 8
    · rw [(h i h8).1]
      cases code.getLsbD (8 + i) <;> simp [h8]
    · by_cases h24 : 16 ≤ i ∧ i < 24
      · have := (h (i - 16) (by omega)).2
        rw [show 16 + (i - 16) = i by omega, show 24 + (i - 16) = 8 + i by omega] at this
        rw [this]
        cases code.getLsbD (8 + i) <;> simp [h24]
      · have : (decide (16 ≤ i) && decide (i < 24)) = false := by simpa using h24
        simp [h8, this]

/-! ### The state machine (41_frame_state_machine.md R80) -/

/-- Everything `acceptBit` can do. -/
theorem acceptBit_cases (c : Config.Params) (b : Bool) (t : BitVec W) (r : Regs W) :
    (r.bitIndex + 1 ≠ 32 ∧ acceptBit c b t r = r.takeBit b) ∨
    (r.bitIndex + 1 = 32 ∧ codeOk (insertBit r.codeBits r.bitIndex b) = true ∧
      acceptBit c b t r = (r.takeBit b).publish (insertBit r.codeBits r.bitIndex b) t) ∨
    (r.bitIndex + 1 = 32 ∧ codeOk (insertBit r.codeBits r.bitIndex b) = false ∧
      acceptBit c b t r = (r.takeBit b).reject c) := by
  by_cases h : r.bitIndex + 1 = 32
  · have h' : acceptBit c b t r = validate c (insertBit r.codeBits r.bitIndex b) t (r.takeBit b) := if_pos h
    cases hc : codeOk (insertBit r.codeBits r.bitIndex b)
    · exact .inr (.inr ⟨h, rfl, h'.trans (if_neg (Bool.eq_false_iff.mp hc))⟩)
    · exact .inr (.inl ⟨h, rfl, h'.trans (if_pos hc)⟩)
  · exact .inl ⟨h, if_neg h⟩

/-- Everything `fsmStep` can do, and in which states. -/
theorem fsmStep_cases (c : Config.Params) (cls : EdgeClass) (t : BitVec W) (r : Regs W) :
    fsmStep c cls t r = r ∨
    (cls = .startPulse ∧ fsmStep c cls t r = r.startFrame) ∨
    (cls = .pulseMalformed ∧ fsmStep c cls t r = r.enterError true) ∨
    (r.st = .preambleWait ∧ cls = .gapPreambleNormal ∧ fsmStep c cls t r = r.startBits) ∨
    (r.st = .preambleWait ∧ cls = .gapPreambleRepeat ∧
      fsmStep c cls t r = r.enterRepeat (clearsPending c.pendingPolicy)) ∨
    ((r.st = .preambleWait ∨ r.st = .active) ∧ cls = .gapOther ∧
      fsmStep c cls t r = r.enterError (clearsPending c.pendingPolicy)) ∨
    (r.st = .active ∧ ∃ b, fsmStep c cls t r = acceptBit c b t r) := by
  cases cls with
  | startPulse => exact .inr (.inl ⟨rfl, rfl⟩)
  | pulseMalformed => exact .inr (.inr (.inl ⟨rfl, rfl⟩))
  | markIgnored => exact .inl rfl
  | gapPreambleNormal => by_cases h : r.st = .preambleWait <;> simp [fsmStep, h]
  | gapPreambleRepeat => by_cases h : r.st = .preambleWait <;> simp [fsmStep, h]
  | dataShort =>
    by_cases h : r.st = .active
    · exact .inr (.inr (.inr (.inr (.inr (.inr ⟨h, false, if_pos h⟩)))))
    · exact .inl (if_neg h)
  | dataLong =>
    by_cases h : r.st = .active
    · exact .inr (.inr (.inr (.inr (.inr (.inr ⟨h, true, if_pos h⟩)))))
    · exact .inl (if_neg h)
  | gapOther =>
    cases h : r.st <;> simp [fsmStep, h]
    cases c.preambleGapOther <;> simp

/-- The state machine writes neither edge timestamp nor `armed` (10_state.md R25, R26, R30). -/
theorem fsmStep_edgeRecord (c : Config.Params) (cls : EdgeClass) (t : BitVec W) (r : Regs W) :
    (fsmStep c cls t r).lastFall = r.lastFall ∧ (fsmStep c cls t r).lastRise = r.lastRise ∧
      (fsmStep c cls t r).armed = r.armed := by
  rcases fsmStep_cases c cls t r with h | ⟨_, h⟩ | ⟨_, h⟩ | ⟨_, _, h⟩ | ⟨_, _, h⟩ | ⟨_, _, h⟩ | ⟨_, b, h⟩ <;>
    rw [h] <;> try simp
  rcases acceptBit_cases c b t r with ⟨_, h'⟩ | ⟨_, _, h'⟩ | ⟨_, _, h'⟩ <;> rw [h'] <;> simp

/-! ### The edge operations (40_edge_classifier.md R65, R66) -/

theorem edgeRise_unarmed (c : Config.Params) (t : BitVec W) (r : Regs W) (h : r.armed = false) :
    edgeRise c t r = r := by
  simp [edgeRise, h]

theorem edgeRise_of_armed (c : Config.Params) (t : BitVec W) (r : Regs W) (h : r.armed = true) :
    edgeRise c t r = fsmStep c (r.classAt c t) t { r with lastRise := t } := by
  simp [edgeRise, h]

/-- EDGE_RISE writes neither `lastFall` nor `armed`, and `lastRise` only with its own timestamp. -/
theorem edgeRise_edgeRecord (c : Config.Params) (t : BitVec W) (r : Regs W) :
    (edgeRise c t r).lastFall = r.lastFall ∧ (edgeRise c t r).armed = r.armed ∧
      (edgeRise c t r).lastRise = if r.armed then t else r.lastRise := by
  cases h : r.armed
  · simp [edgeRise_unarmed, h]
  · rw [edgeRise_of_armed c t r h]
    have := fsmStep_edgeRecord c (r.classAt c t) t { r with lastRise := t }
    simp_all

end Sys2Proof.Machine
end

