-- ==== Sys2Proof/Laws/Step.lean ====
section
/-! SUPPORT. What `exec`, `perform` and `step` can do. -/
namespace Sys2Proof.Machine

/-- What an operation does to the registers. -/
def regsAfter (i : Instr) (r : Regs Config.tsWidth) : Regs Config.tsWidth :=
  match i with
  | .nop        => r
  | .edgeFall t => edgeFall t r
  | .edgeRise t => edgeRise Config.params t r
  | .init       => { r with armed := true }
  | .getState   => r
  | .takeCode   => takeCode Config.params r

/-- What an operation responds. -/
def responseOf (i : Instr) (r : Regs Config.tsWidth) : Response Config.tsWidth :=
  match i with
  | .nop        => .silent
  | .edgeFall _ => .silent
  | .edgeRise _ => .silent
  | .init       => .silent
  | .getState   => .state r.st.code
  | .takeCode   => takeResponse Config.params r

/-- An operation always completes, and writes registers and the response only. -/
theorem exec_eq (i : Instr) (s : State) :
    exec i s = .next (s.finish (regsAfter i s.regs) (responseOf i s.regs)) := by
  cases i <;> rfl

theorem regsAfter_edgeFall {r : Regs Config.tsWidth} (h : r.armed = true) (t : Timestamp) :
    regsAfter (.edgeFall t) r = { r with lastFall := t } := by
  simp [regsAfter, edgeFall, h]

/-- While not armed and with no code pending, no operation but INIT writes a register. -/
theorem regsAfter_unarmed {r : Regs Config.tsWidth} (h : r.armed = false) (hp : r.pending = false) {i : Instr}
    (hi : i ≠ .init) : regsAfter i r = r := by
  cases i with
  | nop => rfl
  | edgeFall t => simp [regsAfter, edgeFall, h]
  | edgeRise t => exact edgeRise_unarmed _ _ _ h
  | init => exact absurd rfl hi
  | getState => rfl
  | takeCode => exact Regs.dropPending_of_not_pending hp _

/-- EDGE_RISE while armed, with the two durations written out (40_edge_classifier.md R66, R67). -/
theorem exec_edgeRise_armed {s : State} (h : s.regs.armed = true) (t : Timestamp) :
    exec (.edgeRise t) s = .next (s.finish
      (fsmStep Config.params
        (classify Config.Bands.source (t - s.regs.lastFall) (t - s.regs.lastRise) s.regs.st) t
        { s.regs with lastRise := t }) .silent) := by
  rw [exec_eq]
  simp only [regsAfter, edgeRise_of_armed _ _ _ h]
  rfl

theorem perform_word {w : OpWord} {i : Instr} (h : decodeWord w = .ok i) (s : State) :
    perform (.word w) s = exec i s := by
  simp [perform, h]

theorem perform_reserved {w : OpWord} {why : Reserved} (h : decodeWord w = .error why) (s : State) :
    perform (.word w) s = .refused (.reservedWord why) := by
  simp [perform, h]

/-- What a request does when it does not stop the machine: one operation. -/
theorem perform_cases {q : Request} {s s' : State} (h : perform q s = .next s') : ∃ i, exec i s = .next s' := by
  cases q with
  | word w =>
    cases hd : decodeWord w with
    | ok i => exact ⟨i, by rwa [perform_word hd] at h⟩
    | error why => simp [perform_reserved hd] at h
  | reservedHostOp => simp [perform] at h

theorem performNext_nil {s : State} (h : s.waiting = []) : performNext s = exec .nop s := by
  simp [performNext, h]

theorem performNext_cons {s : State} {q : Request} {qs : List Request} (h : s.waiting = q :: qs) :
    performNext s = perform q { s with waiting := qs } := by
  simp [performNext, h]

/-- What a step that performs a request does: one operation, from a state with the same registers. -/
theorem performNext_cases {s s' : State} (h : performNext s = .next s') :
    ∃ i s0, s0.regs = s.regs ∧ exec i s0 = .next s' := by
  cases hw : s.waiting with
  | nil => exact ⟨.nop, s, rfl, by rwa [performNext_nil hw] at h⟩
  | cons q qs =>
    rw [performNext_cons hw] at h
    obtain ⟨i, hi⟩ := perform_cases h
    exact ⟨i, { s with waiting := qs }, rfl, hi⟩

theorem step_waiting {s : State} {q : Request} {qs : List Request} (h : s.waiting = q :: qs) :
    step s = perform q { s with waiting := qs } := by
  rw [← performNext_cons h]
  simp [step, h]

theorem step_idle {s : State} (h : s.waiting = []) (h' : s.cycles = []) : step s = exec .nop s := by
  rw [← performNext_nil h]
  simp [step, h, h']

theorem step_cycle {s : State} {p : InPorts} {ps : List InPorts} (h : s.waiting = []) (h' : s.cycles = p :: ps) :
    step s = if p.rst then .next { s.resetBlock with cycles := ps } else performNext (s.sample p ps) := by
  simp [step, h, h']

/-- What a step that does not stop the machine does: a reset, or one operation from a state with the same
registers. -/
theorem step_cases {s s' : State} (h : step s = .next s') :
    (s.waiting = [] ∧ ∃ p ps, s.cycles = p :: ps ∧ p.rst = true ∧ s' = { s.resetBlock with cycles := ps }) ∨
    ∃ i s0, s0.regs = s.regs ∧ exec i s0 = .next s' := by
  cases hw : s.waiting with
  | cons q qs =>
    rw [step_waiting hw] at h
    obtain ⟨i, hi⟩ := perform_cases h
    exact .inr ⟨i, { s with waiting := qs }, rfl, hi⟩
  | nil =>
    cases hc : s.cycles with
    | nil => exact .inr ⟨.nop, s, rfl, by rwa [step_idle hw hc] at h⟩
    | cons p ps =>
      rw [step_cycle hw hc] at h
      by_cases hr : p.rst = true
      · simp only [hr, if_true, Host.Outcome.next.injEq] at h
        exact .inl ⟨rfl, p, ps, rfl, hr, h.symm⟩
      · simp only [hr] at h
        obtain ⟨i, s0, h0, hi⟩ := performNext_cases h
        exact .inr ⟨i, s0, h0, hi⟩

/-- The registers after a step that does not stop the machine. -/
theorem step_regs {s s' : State} (h : step s = .next s') :
    (s.waiting = [] ∧ ∃ p ps, s.cycles = p :: ps ∧ p.rst = true ∧ s'.regs = Regs.reset Config.params) ∨
    ∃ i, s'.regs = regsAfter i s.regs := by
  rcases step_cases h with ⟨hw, p, ps, hc, hr, rfl⟩ | ⟨i, s0, h0, hi⟩
  · exact .inl ⟨hw, p, ps, hc, hr, rfl⟩
  · rw [exec_eq, h0, Host.Outcome.next.injEq] at hi
    exact .inr ⟨i, by rw [← hi]; rfl⟩

end Sys2Proof.Machine

namespace Sys2Proof.Safety

open Sys2Proof.Machine

@[simp] theorem execAll_nil (s : State) : execAll [] s = .next s := rfl

/-- A list of operations always completes. -/
theorem execAll_cons (i : Instr) (is : List Instr) (s : State) :
    execAll (i :: is) s = execAll is (s.finish (regsAfter i s.regs) (responseOf i s.regs)) := by
  simp [execAll, exec_eq]

theorem execAll_append (is js : List Instr) (s t : State) (h : execAll is s = .next t) :
    execAll (is ++ js) s = execAll js t := by
  induction is generalizing s with
  | nil => simp_all
  | cons i is ih =>
    rw [execAll_cons] at h
    rw [List.cons_append, execAll_cons, ih _ h]

end Sys2Proof.Safety
end

