-- ==== Sys2Proof/Tests/Slice0.lean ====
section
/-! SUPPORT. Tests and witnesses. Every expected value is written out in 95_test_vectors.md or computed by hand from the
rule named beside it. -/
namespace Sys2Proof.Tests

open Sys2Proof.Machine Sys2Proof.Safety

/-- Armed registers with the given values, in the column order of 95_test_vectors.md section 2.3. -/
def armedRegs (st : DecoderState) (bitIndex : BitVec 6) (codeBits : Code) (pending : Bool) (outCode : Code)
    (outTs lastFall lastRise : Timestamp) : Regs Config.tsWidth :=
  { st, bitIndex, codeBits, lastFall, lastRise, outCode, outTs, pending, armed := true }

/-- A state with the given registers and nothing presented. -/
def stateOf (r : Regs Config.tsWidth) : State := { State.reset with regs := r }

/-- Registers at the end of an outcome, if it is a next state. -/
def regsThen : Host.Outcome State Fault Refusal → Option (Regs Config.tsWidth)
  | .next s    => some s.regs
  | .fault _   => none
  | .refused _ => none

/-- Response at the end of an outcome, if it is a next state. -/
def rspThen : Host.Outcome State Fault Refusal → Option (Response Config.tsWidth)
  | .next s    => some s.rsp
  | .fault _   => none
  | .refused _ => none

/-- Why an outcome is refused, if it is. -/
def refusalThen : Host.Outcome State Fault Refusal → Option Refusal
  | .next _    => none
  | .fault _   => none
  | .refused r => some r

/-- Registers after `EDGE_RISE t`. -/
def afterRise (t : Timestamp) (r : Regs Config.tsWidth) : Option (Regs Config.tsWidth) :=
  regsThen (exec (.edgeRise t) (stateOf r))

/-- The ports of a cycle without a reset. -/
def ports (edgeValid edgeLevel : Bool) (edgeTs : Timestamp) (hostValid : Bool) (hostOp : BitVec 2) : InPorts :=
  { rst := false, edgeValid, edgeLevel, edgeTs, hostValid, hostOp }

/-- A state in which the given cycles are coming. -/
def withCycles (r : Regs Config.tsWidth) (ps : List InPorts) : State := { stateOf r with cycles := ps }

/-- A state in which the given words wait. -/
def withWords (r : Regs Config.tsWidth) (ws : List OpWord) : State := { stateOf r with waiting := ws.map .word }

/-- The operation word of a number. -/
def word (n : Nat) : OpWord := BitVec.ofNat _ n

/-- The registers of 95_test_vectors.md H10: a code published and not taken. -/
def published : Regs Config.tsWidth := armedRegs .complete 32 0xF708FB04 true 0xF708FB04 69060 70000 69060

/-! ## WellFormed: an ill-formed term for each check -/

theorem smoke_opDefined_refuses : RawOp.opDefined ⟨0x6, 0⟩ = false := by decide
theorem smoke_operandDefined_refuses : RawOp.operandDefined ⟨0x3, 0x10⟩ = false := by decide
theorem smoke_rawOp_wellFormed_refuses :
    RawOp.wellFormed ⟨0xF, 0⟩ = false ∧ RawOp.wellFormed ⟨0x0, 1⟩ = false ∧ RawOp.wellFormed ⟨0x2, 1⟩ = true := by
  decide
theorem smoke_ports_wellFormed_refuses :
    (ports false false 0 true 0b11).wellFormed = false ∧
      ({ ports false false 0 true 0b11 with rst := true }).wellFormed = true := by
  decide

/-! ## Decoding (95_test_vectors.md section 2.1) -/

theorem test_decode_nop : decodeWord 0x000000000 = .ok .nop := by decide
theorem test_decode_edgeFall :
    decodeWord 0x100000000 = .ok (.edgeFall 0) ∧ decodeWord 0x1FFFFFFFF = .ok (.edgeFall 4294967295) := by
  decide
theorem test_decode_edgeRise :
    decodeWord 0x2000003E8 = .ok (.edgeRise 1000) ∧ decodeWord 0x200002710 = .ok (.edgeRise 10000) := by
  decide
theorem test_decode_init : decodeWord 0x300000000 = .ok .init := by decide
theorem test_decode_getState : decodeWord 0x400000000 = .ok .getState := by decide
theorem test_decode_takeCode : decodeWord 0x500000000 = .ok .takeCode := by decide
theorem test_decode_reserved_opcode :
    decodeWord 0x600000000 = .error (.opcode 0x6) ∧ decodeWord 0xF00000000 = .error (.opcode 0xF) ∧
      decodeWord 0xFFFFFFFFF = .error (.opcode 0xF) := by
  decide
theorem test_decode_reserved_operand :
    decodeWord 0x000000001 = .error (.operand 0x0 0x1) ∧ decodeWord 0x300000010 = .error (.operand 0x3 0x10) ∧
      decodeWord 0x480000000 = .error (.operand 0x4 0x80000000) ∧
      decodeWord 0x500000001 = .error (.operand 0x5 0x1) := by
  decide

/-- The encoder, against the words the listings of 95_test_vectors.md section 3 give. -/
theorem test_encode :
    encode (.edgeFall 1000) = 0x1000003E8 ∧ encode (.edgeRise 69060) = 0x200010DC4 ∧ encode .takeCode = 0x500000000 := by
  decide

/-- Table rows through the host's two functions. A word wider than 36 bits is refused. -/
theorem test_table_word :
    decodeTableWord 40 0x2000003E8 = some (.edgeRise 1000) ∧ decodeTableWord 40 0x600000000 = none ∧
      decodeTableWord 40 0x1000000000 = none ∧
      rspThen (step (State.reset.withFetchWord 40 0x400000000)) = some (.state 0) ∧
      regsThen (step (State.reset.withFetchWord 40 0x300000000)) = some { State.reset.regs with armed := true } := by
  decide

/-! ## One step of each operation -/

theorem test_nop : regsThen (exec .nop (stateOf published)) = some published := by decide

/-- 40_edge_classifier.md R65's example, and no write while not armed. -/
theorem test_edgeFall :
    regsThen (exec (.edgeFall 1000) (stateOf published)) = some { published with lastFall := 1000 } ∧
      regsThen (exec (.edgeFall 1000) State.reset) = some State.reset.regs := by
  decide

/-- F1 to F15 of 95_test_vectors.md section 2.3. -/
theorem test_edgeRise_F1_F15 :
    afterRise 10000 (armedRegs .idle 0 0 false 0 0 1000 0) =
      some (armedRegs .preambleWait 0 0 false 0 0 1000 10000) ∧
    afterRise 59000 (armedRegs .active 17 0x0001FB04 false 0 0 50000 49000) =
      some (armedRegs .preambleWait 0 0x0001FB04 false 0 0 50000 59000) ∧
    afterRise 109000 (armedRegs .complete 32 0xF708FB04 true 0xF708FB04 69060 100000 69060) =
      some (armedRegs .preambleWait 0 0xF708FB04 true 0xF708FB04 69060 100000 109000) ∧
    afterRise 109000 (armedRegs .error 9 0x00000104 false 0 0 100000 90000) =
      some (armedRegs .preambleWait 0 0x00000104 false 0 0 100000 109000) ∧
    afterRise 209000 (armedRegs .repeatFrame 0 0xF708FB04 false 0xF708FB04 69060 200000 120000) =
      some (armedRegs .preambleWait 0 0xF708FB04 false 0xF708FB04 69060 200000 209000) ∧
    afterRise 29000 (armedRegs .preambleWait 0 5 false 0 0 20000 11000) =
      some (armedRegs .preambleWait 0 5 false 0 0 20000 29000) ∧
    afterRise 1400 (armedRegs .idle 0 0 false 0 0 1000 0) = some (armedRegs .error 0 0 false 0 0 1000 1400) ∧
    afterRise 15300 (armedRegs .preambleWait 0 0 false 0 0 14500 10000) =
      some (armedRegs .error 0 0 false 0 0 14500 15300) ∧
    afterRise 30701 (armedRegs .active 5 4 false 0 0 30000 29000) =
      some (armedRegs .error 5 4 false 0 0 30000 30701) ∧
    afterRise 70400 published = some (armedRegs .error 32 0xF708FB04 false 0xF708FB04 69060 70000 70400) ∧
    afterRise 80100 (armedRegs .error 3 0 false 0 0 80000 70000) =
      some (armedRegs .error 3 0 false 0 0 80000 80100) ∧
    afterRise 15060 (armedRegs .preambleWait 0 0xDEADBEEF false 0 0 14500 10000) =
      some (armedRegs .active 0 0 false 0 0 14500 15060) ∧
    afterRise 122060 (armedRegs .preambleWait 0 0xF708FB04 true 0xF708FB04 69060 121500 119000) =
      some (armedRegs .repeatFrame 0 0xF708FB04 false 0xF708FB04 69060 121500 122060) ∧
    afterRise 15560 (armedRegs .preambleWait 0 0 true 0xF708FB04 69060 15000 10000) =
      some (armedRegs .preambleWait 0 0 true 0xF708FB04 69060 15000 15560) ∧
    afterRise 30560 (armedRegs .active 12 0x00000B04 true 0xF708FB04 69060 30000 28900) =
      some (armedRegs .error 12 0x00000B04 false 0xF708FB04 69060 30000 30560) := by
  decide

/-- F16 to F28 of 95_test_vectors.md section 2.3. -/
theorem test_edgeRise_F16_F28 :
    afterRise 16185 (armedRegs .active 0 0 false 0 0 15625 15060) =
      some (armedRegs .active 1 0 false 0 0 15625 16185) ∧
    afterRise 17310 (armedRegs .active 0 0 false 0 0 16750 15060) =
      some (armedRegs .active 1 1 false 0 0 16750 17310) ∧
    afterRise 60560 (armedRegs .active 30 0x3708FB04 false 0 0 60000 58310) =
      some (armedRegs .active 31 0x7708FB04 false 0 0 60000 60560) ∧
    afterRise 60560 (armedRegs .active 31 0x00FF00FF false 0 0 60000 59435) =
      some (armedRegs .complete 32 0x00FF00FF true 0x00FF00FF 60560 60000 60560) ∧
    afterRise 60560 (armedRegs .active 31 0x7708FB04 false 0 0 60000 59435) =
      some (armedRegs .error 32 0x7708FB04 false 0 0 60000 60560) ∧
    afterRise 60560 (armedRegs .active 31 0x7708FB04 false 0 0 60000 58310) =
      some (armedRegs .complete 32 0xF708FB04 true 0xF708FB04 60560 60000 60560) ∧
    afterRise 60560 (armedRegs .active 31 0x7708FB05 false 0 0 60000 58310) =
      some (armedRegs .error 32 0xF708FB05 false 0 0 60000 60560) ∧
    afterRise 60560 (armedRegs .active 31 0x7708FB05 true 0x12ED34CB 5000 60000 58310) =
      some (armedRegs .error 32 0xF708FB05 false 0x12ED34CB 5000 60000 60560) ∧
    afterRise 60560 (armedRegs .active 31 0x7708FB04 true 0x12ED34CB 5000 60000 58310) =
      some (armedRegs .complete 32 0xF708FB04 true 0xF708FB04 60560 60000 60560) ∧
    afterRise 70185 (armedRegs .complete 32 0xF708FB04 true 0xF708FB04 69060 69625 69060) =
      some (armedRegs .complete 32 0xF708FB04 true 0xF708FB04 69060 69625 70185) ∧
    afterRise 130560 (armedRegs .repeatFrame 0 0xF708FB04 false 0xF708FB04 69060 130000 122060) =
      some (armedRegs .repeatFrame 0 0xF708FB04 false 0xF708FB04 69060 130000 130560) ∧
    afterRise 31560 (armedRegs .error 9 0x00000104 false 0 0 31000 30810) =
      some (armedRegs .error 9 0x00000104 false 0 0 31000 31560) ∧
    afterRise 5600 (armedRegs .idle 0 0 false 0 0 5000 0) = some (armedRegs .idle 0 0 false 0 0 5000 5600) := by
  decide

/-- H2, H3. -/
theorem test_init :
    regsThen (exec .init State.reset) = some { State.reset.regs with armed := true } ∧
      regsThen (exec .init (stateOf published)) = some published := by
  decide

/-- H4 to H9. -/
theorem test_getState :
    [DecoderState.idle, .preambleWait, .active, .repeatFrame, .complete, .error].map
        (fun st => rspThen (exec .getState (stateOf { published with st }))) =
      [some (.state 0b000), some (.state 0b001), some (.state 0b010), some (.state 0b011), some (.state 0b100),
        some (.state 0b101)] := by
  decide

/-- H10, H11. -/
theorem test_takeCode_complete :
    rspThen (exec .takeCode (stateOf published)) = some (.take true 0xF708FB04 69060) ∧
      regsThen (exec .takeCode (stateOf published)) = some { published with pending := false } ∧
      rspThen (exec .takeCode (stateOf { published with pending := false })) = some (.take false 0 0) := by
  decide

/-- H12, H13, H16. -/
theorem test_takeCode_elsewhere :
    rspThen (exec .takeCode (stateOf (armedRegs .preambleWait 0 0x00FF00FF true 0x00FF00FF 268060 300000 309000))) =
        some (.take true 0x00FF00FF 268060) ∧
      rspThen (exec .takeCode (stateOf (armedRegs .active 3 0x5 true 0xF708FB04 69060 0 0))) =
        some (.take true 0xF708FB04 69060) ∧
      rspThen (exec .takeCode State.reset) = some (.take false 0 0) := by
  decide

/-! ## Classifier, durations, validator, response word -/

/-- Boundary rows of 95_test_vectors.md section 2.2: rows 1 to 10, 13, 14, 17, 18. -/
theorem test_classify_marks :
    [(0 : Timestamp), 519, 520, 700, 701, 8500, 8501, 9499, 9500, 4294967295].map
        (fun mark => (classify Config.Bands.source mark (5000 : Timestamp) .idle).code) =
      [3, 3, 7, 7, 3, 3, 0, 0, 3, 3] ∧
    [(520 : Timestamp), 700, 8501, 9499].map
        (fun mark => (classify Config.Bands.source mark (5000 : Timestamp) .preambleWait).code) = [4, 4, 0, 0] := by
  decide

/-- Rows 41 to 71 of 95_test_vectors.md section 2.2. -/
theorem test_classify_cells :
    [(4800 : Timestamp), 4801, 5299, 5300, 2800, 2801, 3299, 3300, 1125, 0, 4294967295].map
        (fun cell => (classify Config.Bands.source (560 : Timestamp) cell .preambleWait).code) =
      [6, 4, 4, 6, 6, 5, 5, 6, 6, 6, 6] ∧
    [(900 : Timestamp), 901, 1299, 1300, 2000, 2001, 2499, 2500, 1600, 5060, 0, 4294967295].map
        (fun cell => (classify Config.Bands.source (560 : Timestamp) cell .active).code) =
      [6, 1, 1, 6, 6, 2, 2, 6, 6, 6, 6, 6] ∧
    [DecoderState.idle, .repeatFrame, .complete, .error].map
        (fun st => (classify Config.Bands.source (560 : Timestamp) (1125 : Timestamp) st).code) = [7, 7, 7, 7] := by
  decide

/-- Durations across the wrap, and an edge that goes backwards (95_test_vectors.md section 2.2). -/
theorem test_duration_wraps :
    (armedRegs .active 0 0 false 0 0 0xFFFFFF00 0xFFFFFC7B).mark 0x130 = 560 ∧
      (armedRegs .active 0 0 false 0 0 0xFFFFFF00 0xFFFFFC7B).cell 0x130 = 1205 ∧
      (armedRegs .idle 0 0 false 0 0 1000 0).mark 999 = 4294967295 := by
  decide

/-- 95_test_vectors.md section 2.4. -/
theorem test_codeOk :
    [(0xF708FB04 : Code), 0x00FF00FF, 0xFF00FF00, 0x12ED34CB, 0xBF40FF00, 0x7F80FE01].map codeOk =
      [true, true, true, true, true, true] ∧
    [(0xF708FB05 : Code), 0xF709FB04, 0x00000000, 0xFFFFFFFF, 0x12ED34CC].map codeOk =
      [false, false, false, false, false] := by
  decide

/-- 95_test_vectors.md section 2.1. -/
theorem test_response_word :
    (Response.take true 0xF708FB04 (69060 : Timestamp)).takeWord = some 0x1F708FB0400010DC4 ∧
      (Response.take false 0 (0 : Timestamp)).takeWord = some 0x00000000000000000 := by
  decide

/-! ## Ports and reset -/

/-- The last row of section 2.1's port table, from F10's state: both orders. -/
theorem test_two_requests :
    cycleRequests true (ports true true 70400 true 0b10) = [.word 0x200011300, .word 0x500000000] ∧
      cycleRequests false (ports true true 70400 true 0b10) = [.word 0x500000000, .word 0x200011300] := by
  decide

/-- Z2: a reset cycle with both requests. -/
theorem test_reset_cycle :
    step (withCycles published [{ ports true true 70400 true 0b10 with rst := true }]) = .next State.reset := rfl

/-- R51's rows with one request, from the ports to the response. -/
theorem test_port_rows :
    regsThen (step (withCycles published [ports true false 1000 false 0])) = some { published with lastFall := 1000 } ∧
      rspThen (step (withCycles published [ports false false 0 true 0b01])) = some (.state 4) ∧
      refusalThen (step (withCycles published [ports false false 0 true 0b11])) = some .reservedHostOp ∧
      regsThen (step (withCycles published [ports false false 0 false 0])) = some published := by
  decide

/-- A reserved word is refused when it is performed. -/
theorem test_reserved_word_refused :
    refusalThen (step (withWords published [0x600000000])) = some (.reservedWord (.opcode 0x6)) := by decide

/-! ## The trace front end (30_encoding.md R61, R62) -/

theorem test_trace_lines :
    readTrace "init ; arm\nfall 0x3E8\nrise 4294967296\nstate\ntake\nnop".toList =
      some [.init, .edgeFall 1000, .edgeRise 0, .getState, .takeCode, .nop] := by
  decide

/-- A necrepeat frame: the operands of program P2. -/
theorem test_trace_necrepeat :
    readLine "necrepeat 110000".toList =
      some [.edgeFall 110000, .edgeRise 119000, .edgeFall 121500, .edgeRise 122060] := by
  decide

theorem test_trace_refuses :
    readLine "fall".toList = none ∧ readLine "rise 12x".toList = none ∧ readLine "jump 1".toList = none ∧
      readLine "init 0".toList = none := by
  decide

/-- The first operations of program P1's frame after its start mark. -/
theorem test_necframe :
    (sentBits 0xF708FB04).take 3 = [false, false, true] ∧
      dataMarkOps 14500 [false, false, true] =
        [.edgeFall 14500, .edgeRise 15060, .edgeFall 15625, .edgeRise 16185, .edgeFall 16750, .edgeRise 17310,
          .edgeFall 19000, .edgeRise 19560] ∧
      (necframeOps 1000 0xF708FB04).take 4 = [.edgeFall 1000, .edgeRise 10000, .edgeFall 14500, .edgeRise 15060] := by
  decide

/-! ## Witnesses: concrete states and operands that meet the hypotheses of the statements -/

/-- A state of R33's kind in PreambleWait: F13's. -/
def inPreamble : Regs Config.tsWidth := armedRegs .preambleWait 0 0xF708FB04 true 0xF708FB04 69060 121500 119000

/-- F16's registers, in Active with no bit accepted yet. -/
def inActive : Regs Config.tsWidth := armedRegs .active 0 0 false 0 0 15625 15060

/-- F21's registers, one bit short of a good code. -/
def lastBitGood : Regs Config.tsWidth := armedRegs .active 31 0x7708FB04 false 0 0 60000 58310

/-- F23's registers, one bit short of a bad code, with an older code pending. -/
def lastBitBad : Regs Config.tsWidth := armedRegs .active 31 0x7708FB05 true 0x12ED34CB 5000 60000 58310

theorem witness_ResetCycleReloadsEveryRegister :
    let p : InPorts := { ports true true 70400 true 0b10 with rst := true }
    let s := withCycles published [p, ports false false 0 true 0b10]
    s.waiting = [] ∧ s.cycles = p :: [ports false false 0 true 0b10] ∧ p.rst = true := by
  decide

theorem witness_StepPerformsTheDecodedWord :
    let s := withWords published [0x2FFFFFFFF, 0x600000000]
    s.waiting = .word 0x2FFFFFFFF :: [.word 0x600000000] ∧ decodeWord 0x2FFFFFFFF = .ok (.edgeRise 0xFFFFFFFF) := by
  decide

/-- Every clause: a reset, no request, an edge of each level, each host operation, an edge with each host operation. -/
theorem witness_PortsSelectTheOperations :
    let s := fun p : InPorts => withCycles published [p, ports false false 0 false 0]
    (∀ p ∈ [{ ports true true 5 true 0b11 with rst := true }, ports false true 5 false 0b11, ports true false 5 false 0b11,
        ports true true 0xFFFFFFFF false 0b11, ports false true 5 true 0b00, ports false true 5 true 0b01,
        ports false true 5 true 0b10, ports false true 5 true 0b11, ports true false 5 true 0b00,
        ports true true 5 true 0b01, ports true true 70400 true 0b10, ports true false 5 true 0b11],
      (s p).waiting = [] ∧ (s p).cycles = p :: [ports false false 0 false 0]) ∧
    ((ports true true 70400 true 0b10).rst = false ∧ (ports true true 70400 true 0b10).edgeValid = true ∧
      (ports true true 70400 true 0b10).hostValid = true ∧ (ports true true 70400 true 0b10).hostOp = 0b10) := by
  decide

/-- Each kind of reserved request, at the ends of its range. -/
theorem witness_ReservedRequestsAreRefused :
    (∀ n ∈ [0x600000000, 0xFFFFFFFFF],
      (withWords published [word n]).waiting = .word (word n) :: [] ∧ 6 ≤ (word n).toNat / 2 ^ 32) ∧
    (∀ n ∈ [0x000000001, 0x300000010, 0x480000000, 0x5FFFFFFFF],
      (withWords published [word n]).waiting = .word (word n) :: [] ∧ (word n).toNat / 2 ^ 32 ∈ [0, 3, 4, 5] ∧
        (word n).toNat % 2 ^ 32 ≠ 0) ∧
    (∀ p ∈ [ports false true 7 true 0b11], (withCycles published [p]).waiting = [] ∧
      (withCycles published [p]).cycles = p :: [] ∧ p.rst = false ∧ p.edgeValid = false ∧ p.hostValid = true ∧
      p.hostOp = 0b11) ∧
    ({ stateOf published with waiting := [.reservedHostOp] }).waiting = .reservedHostOp :: [] := by
  decide +kernel

/-- Words that wait, a cycle with two requests, and a reset cycle whose host operation would be reserved. -/
theorem witness_DefinedInputsNeverStop :
    inputsDefined { withCycles published
      [ports true true 70400 true 0b10, { ports false false 0 true 0b11 with rst := true }] with
        waiting := [.word 0x2FFFFFFFF, .word 0x500000000] } = true := by
  decide

/-- Each clause, at the ends of its range. -/
theorem witness_DecoderReadsOpAndOperand :
    (∀ n ∈ [0x100000000, 0x1FFFFFFFF], (word n).toNat / 2 ^ 32 = 0x1) ∧
    (∀ n ∈ [0x200000000, 0x2FFFFFFFF], (word n).toNat / 2 ^ 32 = 0x2) ∧
    ((word 0x000000000).toNat / 2 ^ 32 = 0x0 ∧ (word 0x000000000).toNat % 2 ^ 32 = 0) ∧
    ((word 0x300000000).toNat / 2 ^ 32 = 0x3 ∧ (word 0x300000000).toNat % 2 ^ 32 = 0) ∧
    ((word 0x400000000).toNat / 2 ^ 32 = 0x4 ∧ (word 0x400000000).toNat % 2 ^ 32 = 0) ∧
    ((word 0x500000000).toNat / 2 ^ 32 = 0x5 ∧ (word 0x500000000).toNat % 2 ^ 32 = 0) ∧
    (∀ n ∈ [0x000000001, 0x3FFFFFFFF, 0x400000001, 0x5FFFFFFFF],
      (word n).toNat / 2 ^ 32 ∈ [0x0, 0x3, 0x4, 0x5] ∧ (word n).toNat % 2 ^ 32 ≠ 0) ∧
    (∀ n ∈ [0x600000000, 0xFFFFFFFFF], 0x6 ≤ (word n).toNat / 2 ^ 32) := by
  decide +kernel

theorem witness_EncodeOfDecodeIsTheWord :
    decodeWord 0x1FFFFFFFF = .ok (.edgeFall 0xFFFFFFFF) ∧ decodeWord 0x000000000 = .ok .nop := by
  decide

theorem witness_InitArmsAndIsIdempotent : (stateOf published).regs.armed = true := by decide

/-- The three clauses: a code pending; none pending; Idle, Repeat and Error with the invariants. -/
theorem witness_TakeCodeReturnsAndConsumes :
    (stateOf published).regs.pending = true ∧ State.reset.regs.pending = false ∧
    (RegsInv State.reset.regs ∧ State.reset.regs.st = .idle) ∧
    (∀ st ∈ [DecoderState.repeatFrame, .error], RegsInv (armedRegs st 0 0xF708FB04 false 0xF708FB04 69060 5 6)) := by
  refine ⟨by decide, by decide, ⟨⟨?_, ?_, ?_, ?_, ?_, ?_⟩, by decide⟩, fun st hst => ?_⟩
  on_goal 7 => fin_cases hst <;> refine ⟨?_, ?_, ?_, ?_, ?_, ?_⟩
  all_goals decide

theorem witness_SecondTakeReturnsNone :
    ∀ i ∈ [Instr.getState, .init, .nop, .takeCode], i ∈ [Instr.nop, .init, .getState, .takeCode] := by
  decide

theorem witness_ResponsesHaveTheirFormats :
    Instr.edgeRise 0xFFFFFFFF ≠ .getState ∧ Instr.edgeRise 0xFFFFFFFF ≠ .takeCode := by decide

/-- Before INIT, with an edge still waiting and two draws taken. -/
def beforeInit : State := { withWords State.reset.regs [0x200002328] with draws := 2 }

theorem witness_HostOperationsLeaveTheDecoderAlone :
    (Instr.init ∈ [Instr.init, .getState, .takeCode] ∧ Instr.init ≠ .takeCode) ∧
    (Instr.takeCode ∈ [Instr.init, .getState, .takeCode] ∧ Instr.takeCode ≠ .init) ∧
    Instr.getState ∈ [Instr.init, .getState, .takeCode] ∧
    (UnarmedAtReset beforeInit.regs ∧ beforeInit.regs.armed = false ∧ beforeInit ≠ State.reset) := by
  exact ⟨by decide, by decide, by decide, fun _ => rfl, by decide, by decide⟩

theorem witness_EdgeFallRecordsItsTimestamp :
    (stateOf published).regs.armed = true ∧ State.reset.regs.armed = false := by decide

/-- The durations across the wrap of test_duration_wraps, and an unarmed state. -/
theorem witness_EdgeRiseClassifiesThenSteps :
    (∀ r ∈ [armedRegs .active 0 0 false 0 0 0xFFFFFF00 0xFFFFFC7B],
      (stateOf r).regs.armed = true ∧
      (560#32).toNat = ((0x130 : Timestamp).toNat + 2 ^ 32 - (stateOf r).regs.lastFall.toNat) % 2 ^ 32 ∧
      (1205#32).toNat = ((0x130 : Timestamp).toNat + 2 ^ 32 - (stateOf r).regs.lastRise.toNat) % 2 ^ 32) ∧
    State.reset.regs.armed = false := by
  decide +kernel

/-- The shortest and the longest start pulse. -/
theorem witness_StartPulseRestartsTheFrame :
    let s := stateOf inActive
    s.regs.armed = true ∧
    (8500 < ((24126 : Timestamp) - s.regs.lastFall).toNat ∧ ((24126 : Timestamp) - s.regs.lastFall).toNat < 9500) ∧
    (8500 < ((25124 : Timestamp) - s.regs.lastFall).toNat ∧ ((25124 : Timestamp) - s.regs.lastFall).toNat < 9500) := by
  decide +kernel

/-- Each kind of malformed mark, at the ends of its range. -/
theorem witness_MalformedPulseEntersError :
    let s := stateOf published
    s.regs.armed = true ∧
    (∀ n ∈ [70000, 70519], (BitVec.ofNat 32 n - s.regs.lastFall).toNat < 520) ∧
    (∀ n ∈ [70701, 78500], 700 < (BitVec.ofNat 32 n - s.regs.lastFall).toNat ∧
      (BitVec.ofNat 32 n - s.regs.lastFall).toNat ≤ 8500) ∧
    (∀ n ∈ [79500, 69999], 9500 ≤ (BitVec.ofNat 32 n - s.regs.lastFall).toNat) := by
  decide +kernel

/-- A data mark of `mark` µs whose cell is `cell` µs, in state `st`: the statements' hypotheses at those durations. -/
def dataMarkAt (st : DecoderState) (mark cell : Nat) : Bool :=
  let s := stateOf { inActive with st, lastFall := 0 - BitVec.ofNat _ mark, lastRise := 0 - BitVec.ofNat _ cell }
  s.regs.armed && s.regs.st == st && 520 ≤ ((0 : Timestamp) - s.regs.lastFall).toNat &&
    ((0 : Timestamp) - s.regs.lastFall).toNat ≤ 700 && ((0 : Timestamp) - s.regs.lastRise).toNat == cell

theorem witness_PreambleCellStartsTheBits :
    ∀ cell ∈ [4801, 5299],
      dataMarkAt .preambleWait 520 cell = true ∧ 4800 < cell ∧ cell < 5300 := by
  decide +kernel

theorem witness_RepeatCellEntersRepeat :
    ∀ cell ∈ [2801, 3299],
      dataMarkAt .preambleWait 700 cell = true ∧ 2800 < cell ∧ cell < 3300 := by
  decide +kernel

theorem witness_OtherCellInPreambleIsANoOp :
    ∀ cell ∈ [0, 2800, 3300, 4800, 5300, 4294967295],
      dataMarkAt .preambleWait 560 cell = true ∧ ¬(4800 < cell ∧ cell < 5300) ∧
        ¬(2800 < cell ∧ cell < 3300) := by
  decide +kernel

theorem witness_OtherCellInActiveEntersError :
    ∀ cell ∈ [0, 900, 1300, 2000, 2500, 4294967295],
      dataMarkAt .active 560 cell = true ∧ ¬(900 < cell ∧ cell < 1300) ∧
        ¬(2000 < cell ∧ cell < 2500) := by
  decide +kernel

/-- Both bits at the ends of their bands; the first bit and the last one. -/
theorem witness_DataCellAcceptsItsBit :
    (∀ cell ∈ [2001, 2499], dataMarkAt .active 560 cell = true ∧ 2000 < cell ∧ cell < 2500) ∧
    (∀ cell ∈ [901, 1299], dataMarkAt .active 560 cell = true ∧ 900 < cell ∧ cell < 1300) ∧
    (inActive.bitIndex.toNat ≤ 31 ∧ inActive.bitIndex.toNat < 31) ∧ lastBitGood.bitIndex.toNat ≤ 31 := by
  decide +kernel

/-- F21 and F23: a last bit 1 (cell 2250) that makes a good code, and one that makes a bad code. -/
theorem witness_LastBitIsValidatedInItsStep :
    ∀ rc ∈ [(lastBitGood, (0xF708FB04 : Code), true), (lastBitBad, 0xF708FB05, false)],
      rc.1.armed = true ∧ rc.1.st = .active ∧ 520 ≤ ((60560 : Timestamp) - rc.1.lastFall).toNat ∧
      ((60560 : Timestamp) - rc.1.lastFall).toNat ≤ 700 ∧ 2000 < ((60560 : Timestamp) - rc.1.lastRise).toNat ∧
      ((60560 : Timestamp) - rc.1.lastRise).toNat < 2500 ∧ rc.1.bitIndex = 31 ∧
      (∀ j < 32, rc.2.1.getLsbD j = if j = 31 then true else rc.1.codeBits.getLsbD j) ∧
      ((rc.2.1 ^^^ (rc.2.1 >>> 8)) &&& 0x00FF00FF = 0x00FF00FF ↔ rc.2.2 = true) := by
  decide

theorem witness_DataMarkOutsideAFrameIsIgnored :
    ∀ st ∈ [DecoderState.idle, .repeatFrame, .complete, .error],
      dataMarkAt st 520 0 = true ∧ dataMarkAt st 700 4294967295 = true := by
  decide +kernel

theorem witness_ComplementCheckIsTheByteForm :
    (∀ i ∈ [0, 31], i < 32) ∧ codeOk 0xF708FB04 = true ∧
    (~~~0x08#8 ++ 0x08#8 ++ ~~~0x04#8 ++ 0x04#8 : BitVec 32) = 0xF708FB04 := by
  decide

/-- The inner hypotheses: F12 and F17 change `codeBits`, F2 and F16 change `bitIndex`, F21 changes the output register. -/
theorem witness_EdgeOperationsWriteOnlyTheirRegisters :
    ((afterRise 122020 { inPreamble with lastFall := 121460, lastRise := 116960 }).map (·.codeBits) = some 0 ∧
      inPreamble.codeBits ≠ 0) ∧
    ((afterRise 17310 { inActive with lastFall := 16750 }).map (·.codeBits) = some 1 ∧ inActive.codeBits ≠ 1) ∧
    ((afterRise 59000 { lastBitGood with lastFall := 50000 }).map (·.bitIndex) = some 0 ∧ lastBitGood.bitIndex ≠ 0) ∧
    ((afterRise 16185 inActive).map (·.bitIndex) = some 1 ∧ inActive.bitIndex ≠ 1) ∧
    ((afterRise 60560 lastBitGood).map (·.outCode) = some 0xF708FB04 ∧ lastBitGood.outCode ≠ 0xF708FB04) ∧
    ((afterRise 60560 lastBitGood).map (·.outTs) = some 60560 ∧ lastBitGood.outTs ≠ 60560) := by
  decide

/-- `pending` set by F21, cleared by H10, F10 and F13; entries to Error and Repeat. -/
theorem witness_PendingChangesOnlyAsStated :
    (lastBitGood.pending = false ∧ (afterRise 60560 lastBitGood).map (·.pending) = some true) ∧
    (published.pending = true ∧ (regsThen (exec .takeCode (stateOf published))).map (·.pending) = some false) ∧
    ((afterRise 70400 published).map (·.pending) = some false ∧ (afterRise 70400 published).map (·.st) = some .error ∧
      published.st ≠ .error) ∧
    (inPreamble.pending = true ∧ (afterRise 122060 inPreamble).map (·.pending) = some false ∧
      (afterRise 122060 inPreamble).map (·.st) = some .repeatFrame ∧ inPreamble.st ≠ .repeatFrame) := by
  decide

/-- A state that meets the invariants and takes a step: F13's. -/
theorem witness_EveryStepKeepsTheInvariants :
    RegsInv (withWords inPreamble [0x20001DCCC]).regs ∧
    step (withWords inPreamble [0x20001DCCC]) =
      .next (stateOf { inPreamble with st := .repeatFrame, pending := false, lastRise := 122060 }) := by
  refine ⟨⟨?_, ?_, ?_, ?_, ?_, ?_⟩, rfl⟩ <;> decide

/-- A reachable state that is not the reset state: INIT has been presented and performed. -/
theorem witness_ReachableStatesMeetTheInvariants :
    Reachable (stateOf { State.reset.regs with armed := true }) :=
  .step (.word 0x300000000 .reset) rfl

/-- Before INIT an edge changes nothing; after INIT the hypothesis holds of every register value. -/
theorem witness_EveryStepKeepsTheUnarmedRegistersAtReset :
    (UnarmedAtReset beforeInit.regs ∧ step beforeInit = .next { State.reset with draws := 2 }) ∧
    (UnarmedAtReset (withWords published [0x500000000]).regs ∧
      step (withWords published [0x500000000]) =
        .next { stateOf { published with pending := false } with rsp := .take true 0xF708FB04 69060 }) :=
  ⟨⟨fun _ => rfl, rfl⟩, ⟨fun h => absurd h (by decide), rfl⟩⟩

/-- A reset from Complete enters Idle and disarms. -/
theorem witness_OnlyResetEntersIdleOrDisarms :
    let s := withCycles published [{ ports false false 0 false 0 with rst := true }]
    step s = .next State.reset ∧ (State.reset.regs.st = .idle ∧ s.regs.st ≠ .idle) ∧
      (State.reset.regs.armed = false ∧ s.regs.armed = true) := by
  refine ⟨rfl, ?_, ?_⟩ <;> decide

/-- The three ways out of Complete: a reset, a start pulse (9000 µs), malformed pulses (400, 701, 8500, 9500 µs). -/
theorem witness_TerminalStatesAreLeftOnlyByStartMalformedOrReset :
    published.st ∈ [DecoderState.error, .repeatFrame, .complete] ∧
    step (withCycles published [{ ports false false 0 false 0 with rst := true }]) = .next State.reset ∧
    regsThen (step (withWords published [0x200013498])) =
      some { published with st := .preambleWait, bitIndex := 0, lastRise := 79000 } ∧
    regsThen (step (withWords published [0x200011300])) =
      some { published with st := .error, pending := false, lastRise := 70400 } ∧
    afterRise 70701 published = some { published with st := .error, pending := false, lastRise := 70701 } ∧
    afterRise 78500 published = some { published with st := .error, pending := false, lastRise := 78500 } ∧
    afterRise 79500 published = some { published with st := .error, pending := false, lastRise := 79500 } := by
  refine ⟨by decide, rfl, ?_⟩
  decide

theorem witness_StartPulseRecoversFromEveryState :
    (stateOf lastBitBad).regs.armed = true ∧
    (8500 < (8501 : Timestamp).toNat ∧ (8501 : Timestamp).toNat < 9500) ∧
    (8500 < (9499 : Timestamp).toNat ∧ (9499 : Timestamp).toNat < 9500) := by
  decide

/-- The output register changes: F21 changes the code, and the same frame received again changes the timestamp alone. -/
theorem witness_OnlyCheckedCodesArePublished :
    (edgeRise Config.params 60560 lastBitGood).outCode ≠ lastBitGood.outCode ∧
    (edgeRise Config.params 60560 { lastBitGood with outCode := 0xF708FB04, outTs := 5 }).outTs ≠ 5 := by
  decide

/-- The marks of a frame from rising edge `prev` on: each 560 µs long, its cell 1125 or 2250 µs. -/
def marksAfter (prev : Timestamp) : List Bool → List DataMark
  | []      => []
  | b :: bs =>
    let rise := prev + (if b then 2250 else 1125)
    ⟨b, rise - 560, rise⟩ :: marksAfter rise bs

/-- The preamble of 95_test_vectors.md program P1. -/
def preambleP1 : Preamble := ⟨1000, 10000, 14500, 15060⟩

/-- The mark and the cell of a rising edge `d` µs after the one before it, with a 560 µs mark. -/
theorem mark_and_cell (prev d : BitVec 32) : prev + d - (prev + d - 560) = 560 ∧ prev + d - prev = d := by
  constructor <;> bv_omega

theorem marksAfter_timed (prev : Timestamp) (bs : List Bool) : AllTimed prev (marksAfter prev bs) := by
  induction bs generalizing prev with
  | nil => trivial
  | cons b bs ih =>
    refine ⟨?_, ih _⟩
    simp only [DataMark.Timed, (mark_and_cell prev _).1, (mark_and_cell prev _).2]
    cases b <;> decide

/-- A code that passes the check and one that fails it, from a state in mid-frame; the first with the last mark of
program P1. -/
theorem witness_WellTimedFrameDeliversItsCode :
    (stateOf lastBitBad).regs.armed = true ∧ preambleP1.Marked ∧ preambleP1.Normal ∧
    (∀ code : Code, AllTimed preambleP1.rise (marksAfter preambleP1.rise (sentBits code))) ∧
    (∀ n ∈ [0xF708FB04, 0xF708FB05],
      (marksAfter preambleP1.rise (sentBits (BitVec.ofNat 32 n))).length = 32 ∧
      (marksAfter preambleP1.rise (sentBits (BitVec.ofNat 32 n))).map DataMark.bit = sentBits (BitVec.ofNat 32 n) ∧
      ((marksAfter preambleP1.rise (sentBits (BitVec.ofNat 32 n))).getLast?).isSome = true) ∧
    (marksAfter preambleP1.rise (sentBits 0xF708FB04)).getLast? = some ⟨true, 68500, 69060⟩ ∧
    codeOk 0xF708FB04 = true ∧ codeOk 0xF708FB05 = false := by
  refine ⟨by decide, ?_, ?_, fun code => marksAfter_timed _ _, ?_⟩
  · simp only [Preamble.Marked]; decide +kernel
  · simp only [Preamble.Normal]; decide +kernel
  · decide +kernel

/-- The shortest and the longest repeat cell. -/
theorem witness_RepeatFrameKeepsTheLastCode :
    (stateOf published).regs.armed = true ∧
    ∀ p ∈ [(⟨110000, 119000, 121241, 121801⟩ : Preamble), ⟨110000, 119000, 121739, 122299⟩],
      p.Marked ∧ p.Repeated := by
  simp only [Preamble.Marked, Preamble.Repeated]
  decide +kernel

theorem witness_NecframeIsTakenExactlyOnce :
    (stateOf lastBitBad).regs.armed = true ∧ codeOk 0xF708FB04 = true ∧ codeOk 0xF708FB05 = false := by
  decide

/-- In Repeat another accumulator, and in Error another bit count too; a word to perform, and a reserved word. -/
theorem witness_StaleAccumulatorIsUnobservable :
    SameToTheHost (armedRegs .repeatFrame 0 0xF708FB04 false 0xF708FB04 69060 130000 122060)
      (armedRegs .repeatFrame 0 0xDEADBEEF false 0xF708FB04 69060 130000 122060) ∧
    SameToTheHost (armedRegs .error 9 0x104 false 0 0 31000 30810) (armedRegs .error 3 0 false 0 0 31000 30810) ∧
    step (withWords (armedRegs .error 9 0x104 false 0 0 31000 30810) [0x200007B48]) =
      .next (stateOf (armedRegs .error 9 0x104 false 0 0 31000 31560)) ∧
    step (withWords (armedRegs .error 9 0x104 false 0 0 31000 30810) [0x600000000]) =
      .refused (.reservedWord (.opcode 0x6)) := by
  refine ⟨⟨?_, ?_, ?_, ?_, ?_, ?_, ?_, ?_, ?_⟩, ⟨?_, ?_, ?_, ?_, ?_, ?_, ?_, ?_, ?_⟩, rfl, rfl⟩ <;> decide

/-- Parameters of each other value, and a state for each clause. -/
theorem witness_ParameterValuesChooseTheOpenBehaviour :
    ({ Config.params with preambleGapOther := .error }.preambleGapOther = .error ∧ inPreamble.st = .preambleWait) ∧
    ({ Config.params with pendingPolicy := .clearOnMalformedOnly }.pendingPolicy = .clearOnMalformedOnly) ∧
    ({ Config.params with pendingPolicy := .takeOnlyInComplete }.pendingPolicy = .takeOnlyInComplete ∧
      inPreamble.st ≠ .complete) := by
  decide

end Sys2Proof.Tests
end

section
/-! PROOFS. The statements of 00_scope.md: one operation a step (R12), and only differences of timestamps count (R9). -/
namespace Sys2Proof.Proofs.Scope

open Sys2Proof.Machine Sys2Proof.Safety

/-- Settles O4: the step performs the first request that waits, and performing a word is executing what it decodes
to. -/
theorem stepPerformsTheDecodedWord : Obligations.StepPerformsTheDecodedWord := by
  intro s w qs i hw hd
  rw [step_waiting hw, perform_word hd]

/-! ### What the offset of the stored edge timestamps does to an edge -/

variable {W : Nat}

/-- The offset cancels out of both durations, so the edge has the same class (R9, R67). -/
theorem classAt_shiftEdges (c : Config.Params) (t d : BitVec W) (r : Regs W) :
    (shiftEdges d r).classAt c (t + d) = r.classAt c t := by
  have hmark : (shiftEdges d r).mark (t + d) = r.mark t := duration_add_add t r.lastFall d
  have hcell : (shiftEdges d r).cell (t + d) = r.cell t := duration_add_add t r.lastRise d
  rw [Regs.classAt, hmark, hcell]
  rfl

theorem acceptBit_shiftEdges (c : Config.Params) (b : Bool) (t d : BitVec W) (r : Regs W) :
    acceptBit c b t (shiftEdges d r) = shiftEdges d (acceptBit c b t r) := by
  simp only [acceptBit, validate, apply_ite (shiftEdges d)]
  rfl

/-- The state machine reads no stored edge timestamp and carries them along. -/
theorem fsmStep_shiftEdges (c : Config.Params) (cls : EdgeClass) (t d : BitVec W) (r : Regs W) :
    fsmStep c cls t (shiftEdges d r) = shiftEdges d (fsmStep c cls t r) := by
  have hst : (shiftEdges d r).st = r.st := rfl
  cases cls with
  | startPulse => rfl
  | pulseMalformed => rfl
  | markIgnored => rfl
  | gapPreambleNormal => simp only [fsmStep, hst, apply_ite (shiftEdges d)]; rfl
  | gapPreambleRepeat => simp only [fsmStep, hst, apply_ite (shiftEdges d)]; rfl
  | dataShort => simp only [fsmStep, hst, apply_ite (shiftEdges d), acceptBit_shiftEdges]
  | dataLong => simp only [fsmStep, hst, apply_ite (shiftEdges d), acceptBit_shiftEdges]
  | gapOther =>
    cases h : r.st <;> simp only [fsmStep, hst, h]
    case preambleWait => cases c.preambleGapOther <;> rfl
    case active => rfl

/-! ### What the timestamp given to the state machine does -/

/-- The registers but for the published timestamp. -/
def clearOutTs (r : Regs W) : Regs W := { r with outTs := 0 }

theorem acceptBit_clearOutTs (c : Config.Params) (b : Bool) (t t' : BitVec W) (r : Regs W) :
    clearOutTs (acceptBit c b t' r) = clearOutTs (acceptBit c b t r) := by
  simp only [acceptBit, validate, apply_ite clearOutTs]
  rfl

/-- The state machine writes its timestamp to the output register and nowhere else. -/
theorem fsmStep_clearOutTs (c : Config.Params) (cls : EdgeClass) (t t' : BitVec W) (r : Regs W) :
    clearOutTs (fsmStep c cls t' r) = clearOutTs (fsmStep c cls t r) := by
  cases cls with
  | dataShort => simp only [fsmStep, apply_ite clearOutTs, acceptBit_clearOutTs c false t t']
  | dataLong => simp only [fsmStep, apply_ite clearOutTs, acceptBit_clearOutTs c true t t']
  | startPulse | pulseMalformed | gapPreambleNormal | gapPreambleRepeat | gapOther | markIgnored => rfl

theorem fsmStep_shiftEdges_clearOutTs (c : Config.Params) (cls : EdgeClass) (t t' d : BitVec W) (r : Regs W) :
    clearOutTs (fsmStep c cls t' (shiftEdges d r)) = clearOutTs (shiftEdges d (fsmStep c cls t r)) := by
  rw [fsmStep_shiftEdges]
  exact congrArg (shiftEdges d) (fsmStep_clearOutTs c cls t t' r)

theorem edgeRise_shiftEdges (c : Config.Params) (t d : BitVec W) (r : Regs W) :
    clearOutTs (edgeRise c (t + d) (shiftEdges d r)) = clearOutTs (shiftEdges d (edgeRise c t r)) := by
  cases h : r.armed with
  | false => rw [edgeRise_unarmed c t r h, edgeRise_unarmed c (t + d) (shiftEdges d r) h]
  | true =>
    rw [edgeRise_of_armed c t r h, edgeRise_of_armed c (t + d) (shiftEdges d r) h, classAt_shiftEdges]
    exact fsmStep_shiftEdges_clearOutTs c (r.classAt c t) t (t + d) d { r with lastRise := t }

/-- Settles O49: the class is computed from durations, the state machine carries the edge timestamps along, and its own
timestamp reaches the output register only. -/
theorem onlyTimestampDifferencesMatter : Obligations.OnlyTimestampDifferencesMatter :=
  fun _ c t d r => edgeRise_shiftEdges c t d r

end Sys2Proof.Proofs.Scope
end

section
/-! PROOFS. The statements of 10_state.md: the reset values (R34), who writes which register (R20, R25 to R31), the
invariants (R33), and what only a reset does (R30, R36). -/
namespace Sys2Proof.Proofs.Registers

open Sys2Proof.Machine Sys2Proof.Safety

variable {W : Nat}

/-! ### What the edge operations can do to the registers -/

/-- The register writes of the state machine at a rising edge with timestamp `t`, from `r`: one constructor for each
rule of 41_frame_state_machine.md and each arm of the validator, with the condition it runs under. -/
inductive Transition (c : Config.Params) (t : BitVec W) (r : Regs W) : Regs W → Prop where
  /-- R85, R90, R91. -/
  | stay : Transition c t r r
  /-- R81. -/
  | startFrame : Transition c t r r.startFrame
  /-- R82. -/
  | malformed : Transition c t r (r.enterError true)
  /-- R83. -/
  | startBits (hst : r.st = .preambleWait) : Transition c t r r.startBits
  /-- R84. -/
  | enterRepeat (hst : r.st = .preambleWait) : Transition c t r (r.enterRepeat (clearsPending c.pendingPolicy))
  /-- R86; from PreambleWait only under `preamble_gapother`'s other value (U2). -/
  | wrongGap (hst : r.st = .preambleWait ∨ r.st = .active) :
      Transition c t r (r.enterError (clearsPending c.pendingPolicy))
  /-- R87, R88. -/
  | takeBit (b : Bool) (hst : r.st = .active) (hidx : r.bitIndex + 1 ≠ 32) : Transition c t r (r.takeBit b)
  /-- R89 with R96. -/
  | publish (b : Bool) (hst : r.st = .active) (hidx : r.bitIndex + 1 = 32)
      (hok : codeOk (insertBit r.codeBits r.bitIndex b) = true) :
      Transition c t r ((r.takeBit b).publish (insertBit r.codeBits r.bitIndex b) t)
  /-- R89 with R97. -/
  | reject (b : Bool) (hst : r.st = .active) (hidx : r.bitIndex + 1 = 32) :
      Transition c t r ((r.takeBit b).reject c)

theorem acceptBit_transition (c : Config.Params) (b : Bool) (t : BitVec W) {r : Regs W} (hst : r.st = .active) :
    Transition c t r (acceptBit c b t r) := by
  rcases acceptBit_cases c b t r with ⟨hidx, h⟩ | ⟨hidx, hok, h⟩ | ⟨hidx, _, h⟩ <;> rw [h]
  · exact .takeBit b hst hidx
  · exact .publish b hst hidx hok
  · exact .reject b hst hidx

theorem fsmStep_transition (c : Config.Params) (cls : EdgeClass) (t : BitVec W) (r : Regs W) :
    Transition c t r (fsmStep c cls t r) := by
  rcases fsmStep_cases c cls t r with h | ⟨_, h⟩ | ⟨_, h⟩ | ⟨hst, _, h⟩ | ⟨hst, _, h⟩ | ⟨hst, _, h⟩ | ⟨hst, b, h⟩ <;>
    rw [h]
  · exact .stay
  · exact .startFrame
  · exact .malformed
  · exact .startBits hst
  · exact .enterRepeat hst
  · exact .wrongGap hst
  · exact acceptBit_transition c b t hst

/-- EDGE_RISE, armed or not, is a transition from registers that differ at most in `lastRise` (R66). -/
theorem edgeRise_transition (c : Config.Params) (t : BitVec W) (r : Regs W) :
    ∃ rise, Transition c t { r with lastRise := rise } (edgeRise c t r) := by
  rcases Bool.eq_false_or_eq_true r.armed with h | h
  · exact ⟨t, by rw [edgeRise_of_armed c t r h]; exact fsmStep_transition c _ t _⟩
  · exact ⟨r.lastRise, by rw [edgeRise_unarmed c t r h]; exact .stay⟩

/-- EDGE_FALL, armed or not, writes at most `lastFall` (R65). -/
theorem edgeFall_eq (t : BitVec W) (r : Regs W) : ∃ fall, edgeFall t r = { r with lastFall := fall } := by
  rcases Bool.eq_false_or_eq_true r.armed with h | h
  · exact ⟨t, if_pos h⟩
  · exact ⟨r.lastFall, if_neg (Bool.eq_false_iff.mp h)⟩

@[simp] theorem edgeFall_st (t : BitVec W) (r : Regs W) : (edgeFall t r).st = r.st := by
  obtain ⟨fall, h⟩ := edgeFall_eq t r
  rw [h]

@[simp] theorem edgeFall_pending (t : BitVec W) (r : Regs W) : (edgeFall t r).pending = r.pending := by
  obtain ⟨fall, h⟩ := edgeFall_eq t r
  rw [h]

@[simp] theorem edgeFall_armed (t : BitVec W) (r : Regs W) : (edgeFall t r).armed = r.armed := by
  obtain ⟨fall, h⟩ := edgeFall_eq t r
  rw [h]

/-! ### Which transitions write a register -/

section
variable {c : Config.Params} {t : BitVec W} {r r' : Regs W}

theorem Transition.st_of_codeBits_ne (h : Transition c t r r') (hne : r'.codeBits ≠ r.codeBits) :
    r.st = .preambleWait ∨ r.st = .active := by
  cases h with
  | stay | startFrame | malformed | enterRepeat | wrongGap => exact absurd rfl hne
  | startBits hst => exact .inl hst
  | takeBit _ hst _ | publish _ hst _ _ | reject _ hst _ => exact .inr hst

theorem Transition.st_of_bitIndex_ne (h : Transition c t r r') (hne : r'.bitIndex ≠ r.bitIndex) :
    r'.st = .preambleWait ∨ r.st = .active := by
  cases h with
  | stay | malformed | startBits | enterRepeat | wrongGap => exact absurd rfl hne
  | startFrame => exact .inl rfl
  | takeBit _ hst _ | publish _ hst _ _ | reject _ hst _ => exact .inr hst

theorem Transition.st_of_output_ne (h : Transition c t r r') (hne : r'.outCode ≠ r.outCode ∨ r'.outTs ≠ r.outTs) :
    r.st = .active ∧ r'.st = .complete := by
  cases h with
  | publish _ hst _ _ => exact ⟨hst, rfl⟩
  | stay | startFrame | malformed | startBits | enterRepeat | wrongGap | takeBit | reject => simp at hne

/-- `pending` is set by a successful validation only (R29, R96). -/
theorem Transition.published_of_pending_set (h : Transition c t r r') (hp : r.pending = false)
    (hp' : r'.pending = true) :
    r.st = .active ∧ r'.st = .complete ∧ codeOk r'.outCode = true ∧ r'.outTs = t := by
  cases h with
  | publish _ hst _ hok => exact ⟨hst, rfl, hok, rfl⟩
  | stay | startFrame | malformed | startBits | enterRepeat | wrongGap | takeBit | reject => simp [hp] at hp'

/-- `pending` is cleared on the way into Error or Repeat only (R29). -/
theorem Transition.st_of_pending_cleared (h : Transition c t r r') (hp : r.pending = true)
    (hp' : r'.pending = false) : r'.st = .error ∨ r'.st = .repeatFrame := by
  cases h with
  | malformed | wrongGap | reject => exact .inl rfl
  | enterRepeat => exact .inr rfl
  | stay | startFrame | startBits | takeBit | publish => simp [hp] at hp'

/-- Under R29's policy, every entry to Error and to Repeat leaves `pending` 0. -/
theorem Transition.not_pending_of_enter (hc : clearsPending c.pendingPolicy = true) (h : Transition c t r r')
    (hst' : r'.st = .error ∨ r'.st = .repeatFrame) (hne : r'.st ≠ r.st) : r'.pending = false := by
  cases h with
  | malformed => rfl
  | enterRepeat | wrongGap | reject => simp [hc]
  | stay | takeBit => exact absurd rfl hne
  | startFrame | startBits | publish => simp at hst'

/-- No transition leads into Idle (R36). -/
theorem Transition.st_of_idle (h : Transition c t r r') (hst' : r'.st = .idle) : r.st = .idle := by
  cases h with
  | stay | takeBit => exact hst'
  | startFrame | malformed | startBits | enterRepeat | wrongGap | publish | reject => simp at hst'

end

/-! ### Which operations write `st`, `pending` and `armed` -/

/-- A TAKE_CODE always leaves `pending` 0: what it finds, it returns and clears (R103). -/
@[simp] theorem takeCode_pending (r : Regs W) : (takeCode Config.params r).pending = false := by
  have h : r.takeable Config.params = r.pending := rfl
  simp [takeCode, h]

@[simp] theorem takeCode_st (c : Config.Params) (r : Regs W) : (takeCode c r).st = r.st := rfl

@[simp] theorem takeCode_armed (c : Config.Params) (r : Regs W) : (takeCode c r).armed = r.armed := rfl

theorem takeResponse_of_pending {r : Regs W} (h : r.pending = true) :
    takeResponse Config.params r = .take true r.outCode r.outTs :=
  if_pos h

section
variable {i : Instr} {r : Regs Config.tsWidth}

/-- Only a rising edge changes `st` (R22). -/
theorem regsAfter_st (hi : ∀ t, i ≠ .edgeRise t) : (regsAfter i r).st = r.st := by
  cases i with
  | edgeRise t => exact absurd rfl (hi t)
  | edgeFall t => exact edgeFall_st t r
  | nop | init | getState | takeCode => rfl

theorem regsAfter_pending_set (hp : r.pending = false) (hp' : (regsAfter i r).pending = true) :
    ∃ t, i = .edgeRise t ∧ r.st = .active ∧ (regsAfter i r).st = .complete ∧
      codeOk (regsAfter i r).outCode = true ∧ (regsAfter i r).outTs = t := by
  cases i with
  | edgeRise t =>
    obtain ⟨_, h⟩ := edgeRise_transition Config.params t r
    exact ⟨t, rfl, h.published_of_pending_set hp hp'⟩
  | nop | edgeFall | init | getState | takeCode => simp [regsAfter, hp] at hp'

theorem regsAfter_pending_cleared (hp : r.pending = true) (hp' : (regsAfter i r).pending = false) :
    (i = .takeCode ∧ responseOf i r = .take true r.outCode r.outTs) ∨
      ∃ t, i = .edgeRise t ∧ ((regsAfter i r).st = .error ∨ (regsAfter i r).st = .repeatFrame) := by
  cases i with
  | edgeRise t =>
    obtain ⟨_, h⟩ := edgeRise_transition Config.params t r
    exact .inr ⟨t, rfl, h.st_of_pending_cleared hp hp'⟩
  | takeCode => exact .inl ⟨rfl, takeResponse_of_pending hp⟩
  | nop | edgeFall | init | getState => simp [regsAfter, hp] at hp'

theorem regsAfter_not_pending_of_enter
    (hst' : (regsAfter i r).st = .error ∨ (regsAfter i r).st = .repeatFrame) (hne : (regsAfter i r).st ≠ r.st) :
    (regsAfter i r).pending = false := by
  cases i with
  | edgeRise t =>
    obtain ⟨_, h⟩ := edgeRise_transition Config.params t r
    exact h.not_pending_of_enter rfl hst' hne
  | nop | edgeFall | init | getState | takeCode => exact absurd (regsAfter_st (by simp)) hne

/-- No operation leads into Idle (R36). -/
theorem st_of_regsAfter_idle (h : (regsAfter i r).st = .idle) : r.st = .idle := by
  cases i with
  | edgeRise t =>
    obtain ⟨_, ht⟩ := edgeRise_transition Config.params t r
    exact ht.st_of_idle h
  | nop | edgeFall | init | getState | takeCode => rwa [regsAfter_st (by simp)] at h

/-- No operation clears `armed` (R30). -/
theorem regsAfter_armed (h : r.armed = true) : (regsAfter i r).armed = true := by
  cases i with
  | edgeRise t =>
    obtain ⟨_, harmed, _⟩ := edgeRise_edgeRecord Config.params t r
    exact harmed.trans h
  | init => rfl
  | nop | edgeFall | getState | takeCode => simp [regsAfter, h]

end

/-! ### The invariants of R33 under the register operations -/

section
variable {r r' : Regs W}

theorem regsInv_reset (c : Config.Params) : RegsInv (Regs.reset c : Regs W) where
  bitIndex_le := Nat.zero_le 32
  preambleWait_start := nofun
  active_bits := nofun
  quiet_states _ := rfl
  idle_clear _ := ⟨rfl, rfl, rfl, rfl, rfl⟩
  complete_code := nofun

/-- The invariants speak of neither edge timestamp nor `armed`. -/
theorem regsInv_setEdgeRecord (h : RegsInv r) (fall rise : BitVec W) (armed : Bool) :
    RegsInv { r with lastFall := fall, lastRise := rise, armed := armed } :=
  ⟨h.bitIndex_le, h.preambleWait_start, h.active_bits, h.quiet_states, h.idle_clear, h.complete_code⟩

theorem regsInv_dropPending (h : RegsInv r) (clear : Bool) : RegsInv (r.dropPending clear) where
  bitIndex_le := h.bitIndex_le
  preambleWait_start := h.preambleWait_start
  active_bits := h.active_bits
  quiet_states hst := by simp [h.quiet_states hst]
  idle_clear hst := by
    obtain ⟨hidx, hcode, hout, hts, hp⟩ := h.idle_clear hst
    exact ⟨hidx, hcode, hout, hts, by simp [hp]⟩
  complete_code := h.complete_code

/-- In Error and Repeat the invariants ask only for a `bitIndex` in range and nothing pending (R33 (a), (d)). -/
theorem regsInv_of_error_or_repeat (hst : r.st = .error ∨ r.st = .repeatFrame) (hidx : r.bitIndex.toNat ≤ 32)
    (hp : r.pending = false) : RegsInv r where
  bitIndex_le := hidx
  preambleWait_start h := by simp [h] at hst
  active_bits h := by simp [h] at hst
  quiet_states _ := hp
  idle_clear h := by simp [h] at hst
  complete_code h := by simp [h] at hst

theorem regsInv_enterError (h : r.bitIndex.toNat ≤ 32) : RegsInv (r.enterError true) :=
  regsInv_of_error_or_repeat (.inl rfl) h rfl

theorem regsInv_enterRepeat (h : r.bitIndex.toNat ≤ 32) : RegsInv (r.enterRepeat true) :=
  regsInv_of_error_or_repeat (.inr rfl) h rfl

theorem regsInv_startFrame (r : Regs W) : RegsInv r.startFrame where
  bitIndex_le := by simp
  preambleWait_start _ := rfl
  active_bits := nofun
  quiet_states := by simp
  idle_clear := nofun
  complete_code := nofun

theorem regsInv_startBits (h : r.bitIndex = 0) : RegsInv r.startBits where
  bitIndex_le := by simp [h]
  preambleWait_start := nofun
  active_bits _ := by simp [h]
  quiet_states := by simp
  idle_clear := nofun
  complete_code := nofun

/-- A bit inserted below the zeros leaves zeros above it (R33 (c)). -/
theorem insertBit_ushiftRight_succ {code : BitVec 32} {i : BitVec 6} (h : code >>> i.toNat = 0) (b : Bool) :
    insertBit code i b >>> (i.toNat + 1) = 0 := by
  apply BitVec.eq_of_getLsbD_eq
  intro j _
  have hcode : code.getLsbD (i.toNat + (j + 1)) = false := by
    rw [← BitVec.getLsbD_ushiftRight, h]; exact BitVec.getLsbD_zero
  rw [BitVec.ofNat_eq_ofNat, BitVec.getLsbD_zero, BitVec.getLsbD_ushiftRight,
    show i.toNat + 1 + j = i.toNat + (j + 1) by omega]
  by_cases hj : i.toNat + (j + 1) < 32
  · rw [insertBit_getLsbD _ _ _ _ hj, if_neg (by omega), hcode]
  · exact BitVec.getLsbD_of_ge _ _ (by omega)

theorem regsInv_takeBit (h : RegsInv r) (hst : r.st = .active) (hidx : r.bitIndex + 1 ≠ 32) (b : Bool) :
    RegsInv (r.takeBit b) := by
  obtain ⟨hle, hzero⟩ := h.active_bits hst
  have hnext : (r.bitIndex + 1).toNat = r.bitIndex.toNat + 1 := by bv_omega
  have hle' : (r.bitIndex + 1).toNat ≤ 31 := by bv_omega
  exact
    { bitIndex_le := hle'.trans (by decide)
      preambleWait_start := by simp [hst]
      active_bits := fun _ => ⟨hle', by
        rw [Regs.takeBit_bitIndex, Regs.takeBit_codeBits, hnext]; exact insertBit_ushiftRight_succ hzero b⟩
      quiet_states := by simp [hst]
      idle_clear := by simp [hst]
      complete_code := by simp [hst] }

theorem regsInv_publish (h : r.bitIndex = 32) (hok : codeOk r.codeBits = true) (t : BitVec W) :
    RegsInv (r.publish r.codeBits t) where
  bitIndex_le := by simp [h]
  preambleWait_start := nofun
  active_bits := nofun
  quiet_states := by simp
  idle_clear := nofun
  complete_code _ := ⟨h, rfl, hok⟩

/-- Under R29's policy, every transition keeps the invariants. -/
theorem Transition.regsInv {c : Config.Params} {t : BitVec W} (hc : clearsPending c.pendingPolicy = true)
    (ht : Transition c t r r') (h : RegsInv r) : RegsInv r' := by
  cases ht with
  | stay => exact h
  | startFrame => exact regsInv_startFrame r
  | malformed => exact regsInv_enterError h.bitIndex_le
  | startBits hst => exact regsInv_startBits (h.preambleWait_start hst)
  | enterRepeat => rw [hc]; exact regsInv_enterRepeat h.bitIndex_le
  | wrongGap => rw [hc]; exact regsInv_enterError h.bitIndex_le
  | takeBit b hst hidx => exact regsInv_takeBit h hst hidx b
  | publish b _ hidx hok => exact regsInv_publish (r := r.takeBit b) hidx hok t
  | reject b _ hidx =>
    rw [Regs.reject, hc]
    exact regsInv_enterError (r := r.takeBit b) (by rw [Regs.takeBit_bitIndex, hidx]; decide)

end

/-- Every operation keeps the invariants. -/
theorem regsInv_regsAfter {r : Regs Config.tsWidth} (h : RegsInv r) (i : Instr) : RegsInv (regsAfter i r) := by
  cases i with
  | nop | getState => exact h
  | edgeFall t =>
    obtain ⟨fall, hfall⟩ := edgeFall_eq t r
    simpa only [regsAfter, hfall] using regsInv_setEdgeRecord h fall r.lastRise r.armed
  | edgeRise t =>
    obtain ⟨rise, ht⟩ := edgeRise_transition Config.params t r
    exact ht.regsInv rfl (regsInv_setEdgeRecord h r.lastFall rise r.armed)
  | init => exact regsInv_setEdgeRecord h r.lastFall r.lastRise true
  | takeCode => exact regsInv_dropPending h _

/-- What the reset registers meet and every step keeps, the registers of every reachable state meet: presenting
inputs writes no register. -/
theorem reachable_regs {P : Regs Config.tsWidth → Prop} (hreset : P State.reset.regs)
    (hstep : ∀ s s' : State, P s.regs → step s = .next s' → P s'.regs) {s : State} (h : Reachable s) : P s.regs := by
  induction h with
  | reset => exact hreset
  | step _ hs ih => exact hstep _ _ ih hs
  | cycle _ _ ih => exact ih
  | word _ _ ih => exact ih

/-! ### The statements -/

/-- Settles O38: a step is a reset cycle or one operation, and both meet the invariants. -/
theorem everyStepKeepsTheInvariants : Obligations.EveryStepKeepsTheInvariants := by
  intro s s' h hs
  rcases step_regs hs with ⟨_, _, _, _, _, hr⟩ | ⟨i, hr⟩ <;> rw [hr]
  · exact regsInv_reset Config.params
  · exact regsInv_regsAfter h i

/-- Settles O35, from what EDGE_FALL writes and from the transitions of EDGE_RISE. -/
theorem edgeOperationsWriteOnlyTheirRegisters : Obligations.EdgeOperationsWriteOnlyTheirRegisters := by
  constructor
  · intro s t
    obtain ⟨fall, hfall⟩ := edgeFall_eq t s.regs
    exact ⟨_, exec_eq _ s, by simp [regsAfter, hfall], rfl, rfl, rfl⟩
  · intro s t
    obtain ⟨hlastFall, harmed, _⟩ := edgeRise_edgeRecord Config.params t s.regs
    obtain ⟨_, h⟩ := edgeRise_transition Config.params t s.regs
    exact ⟨_, exec_eq _ s, hlastFall, harmed, rfl, rfl, rfl, h.st_of_codeBits_ne, h.st_of_bitIndex_ne,
      h.st_of_output_ne⟩

/-- Settles O36: one lemma for each of the three clauses, over the operations. -/
theorem pendingChangesOnlyAsStated : Obligations.PendingChangesOnlyAsStated :=
  fun i s => ⟨_, exec_eq i s, regsAfter_pending_set, regsAfter_pending_cleared, regsAfter_not_pending_of_enter⟩

/-- Settles O1: the parameters' values for `lastFall` and `lastRise` are 0. -/
theorem resetLeavesEveryRegisterAtItsValue : Obligations.ResetLeavesEveryRegisterAtItsValue := rfl

/-- Settles O37. -/
theorem resetMeetsTheInvariants : Obligations.ResetMeetsTheInvariants := regsInv_reset Config.params

/-- Settles O39, by induction on the run: O37 is its base and O38 its step. -/
theorem reachableStatesMeetTheInvariants : Obligations.ReachableStatesMeetTheInvariants :=
  fun _ h => reachable_regs resetMeetsTheInvariants everyStepKeepsTheInvariants h

/-- Settles O40: a step that is no reset is one operation, and no operation enters Idle or clears `armed`. -/
theorem onlyResetEntersIdleOrDisarms : Obligations.OnlyResetEntersIdleOrDisarms := by
  intro s s' hs h
  rcases step_regs hs with ⟨hw, p, ps, hc, hrst, _⟩ | ⟨i, hr⟩
  · exact ⟨hw, p, ps, hc, hrst⟩
  · rw [hr] at h
    rcases h with ⟨hidle, hne⟩ | ⟨hdisarmed, harmed⟩
    · exact absurd (st_of_regsAfter_idle hidle) hne
    · rw [regsAfter_armed harmed] at hdisarmed
      exact absurd hdisarmed nofun

end Sys2Proof.Proofs.Registers
end

section
/-! PROOFS. The statements of 20_memory.md: a trace of operation words runs as its operations, in order (R46). -/
namespace Sys2Proof.Proofs.Memory

open Sys2Proof.Machine Sys2Proof.Safety

/-- The decoder reads an instruction back from its word. -/
@[simp] theorem decodeWord_encode (i : Instr) : decodeWord (encode i) = .ok i := by
  rw [decodeWord, fieldsOf_encode, decodeRaw_raw]

theorem run_succ_of_step {s s' : State} (h : step s = .next s') (k : Nat) :
    Host.Core.run Sys2Proof.core (k + 1) s = Host.Core.run Sys2Proof.core k s' := by
  have hcore : Sys2Proof.core.step s = .next s' := h
  simp only [Host.Core.run, hcore]

/-- A step whose first waiting request is an operation's word performs the operation; what waits behind it still
waits (20_memory.md R46). -/
theorem step_encode_waiting (i : Instr) (s : State) (qs : List Request) :
    step { s with waiting := .word (encode i) :: qs } =
      .next { s.finish (regsAfter i s.regs) (responseOf i s.regs) with waiting := qs } := by
  rw [step_waiting rfl, perform_word (decodeWord_encode i), exec_eq]
  rfl

/-- Settles O8, by induction on the operations: each step performs the first of them, from which the rest of the
trace goes on. -/
theorem traceRunsItsOperationsInOrder : Obligations.TraceRunsItsOperationsInOrder := by
  intro ops s qs
  induction ops generalizing s with
  | nil => rfl
  | cons i is ih =>
    have hstep := step_encode_waiting i s ((is.map fun i => Request.word (encode i)) ++ qs)
    rw [execAll_cons]
    exact (run_succ_of_step hstep is.length).trans (ih (s.finish (regsAfter i s.regs) (responseOf i s.regs)))

end Sys2Proof.Proofs.Memory
end

section
/-! PROOFS. The statements of 30_encoding.md: the round trips of the decoder and the encoder (R52, R53, R55), the
requests of a clock cycle (R51), the reserved requests (R56), the responses (R57) and the macro `necframe` (R62). -/
namespace Sys2Proof.Proofs.Encoding

open Sys2Proof.Machine Sys2Proof.Safety Sys2Proof.Proofs.Memory

/-! ### The decoder (R52, R53, R55) -/

/-- What the decoder reads has the fields it was read from: one case for each operation's arm of `decodeRaw`. -/
theorem raw_of_decodeRaw {r : RawOp} {i : Instr} (h : decodeRaw r = .ok i) : i.raw = r := by
  obtain ⟨op, t⟩ := r
  simp only [decodeRaw] at h
  split_ifs at h with h1 h2 h5 ht h0 h3 h4
  all_goals cases h
  · rw [h1]; rfl
  · rw [h2]; rfl
  all_goals rw [not_not.mp ht]
  · rw [h0]; rfl
  · rw [h3]; rfl
  · rw [h4]; rfl
  · have hop : op = 5 := by bv_omega
    rw [hop]; rfl

/-- A word whose two parts, as numbers, are an instruction's fields decodes to the instruction. -/
theorem decodeWord_of_parts {w : OpWord} (i : Instr) (hop : w.toNat / 2 ^ Config.tsWidth = i.raw.op.toNat)
    (ht : w.toNat % 2 ^ Config.tsWidth = i.raw.t.toNat) : decodeWord w = .ok i := by
  have hw : w = encode i := BitVec.eq_of_toNat_eq <| by rw [encode_toNat, ← hop, ← ht, Nat.div_add_mod']
  rw [hw, decodeWord_encode]

/-- R56's first kind, over the word as a number. -/
theorem decodeWord_reserved_op {w : OpWord} (h : 6 ≤ w.toNat / 2 ^ Config.tsWidth) :
    ∃ why, decodeWord w = .error why :=
  ⟨_, decodeRaw_reserved_op (by rwa [fieldsOf_op_toNat])⟩

/-- R56's second kind, over the word as a number. -/
theorem decodeWord_reserved_operand {w : OpWord} (h : w.toNat / 2 ^ Config.tsWidth ∈ [0, 3, 4, 5])
    (ht : w.toNat % 2 ^ Config.tsWidth ≠ 0) : ∃ why, decodeWord w = .error why := by
  refine ⟨_, decodeRaw_reserved_operand (by rwa [fieldsOf_op_toNat]) fun hzero => ht ?_⟩
  rw [← fieldsOf_t_toNat, hzero]
  rfl

/-- Settles O11: the encoder puts the fields where the decoder reads them, and the decoder reads an instruction's own
fields back. -/
theorem decodeOfEncodeIsTheInstruction : Obligations.DecodeOfEncodeIsTheInstruction := decodeWord_encode

/-- Settles O12: the decoded instruction has the word's fields, and a word is fixed by its fields. -/
theorem encodeOfDecodeIsTheWord : Obligations.EncodeOfDecodeIsTheWord := by
  intro w i h
  apply fieldsOf_injective
  rw [fieldsOf_encode, raw_of_decodeRaw h]

/-- Settles O9: the six operations by their fields, the other words by the two kinds of reserved words. -/
theorem decoderReadsOpAndOperand : Obligations.DecoderReadsOpAndOperand := by
  intro w op t
  have operand : t = (BitVec.ofNat 32 t).toNat := (Nat.mod_mod _ _).symm
  exact ⟨fun h => decodeWord_of_parts (.edgeFall _) h operand, fun h => decodeWord_of_parts (.edgeRise _) h operand,
    decodeWord_of_parts .nop, decodeWord_of_parts .init, decodeWord_of_parts .getState,
    decodeWord_of_parts .takeCode, decodeWord_reserved_operand, decodeWord_reserved_op⟩

/-- Settles O10: each word's two parts are its row's of the table. -/
theorem sampleWordsDecode : Obligations.SampleWordsDecode :=
  ⟨decodeWord_of_parts .nop rfl rfl, decodeWord_of_parts (.edgeFall 1000) rfl rfl,
    decodeWord_of_parts (.edgeRise 4294910760) rfl rfl, decodeWord_of_parts .init rfl rfl,
    decodeWord_of_parts .getState rfl rfl, decodeWord_of_parts .takeCode rfl rfl⟩

/-! ### The requests of a clock cycle (R51) -/

/-- The operation of a cycle's edge request: `edge_ts`, by `edge_level`. -/
def edgeOperation (p : InPorts) : Instr := if p.edgeLevel then .edgeRise p.edgeTs else .edgeFall p.edgeTs

theorem edgeRequests_of_valid {p : InPorts} (he : p.edgeValid = true) :
    edgeRequests p = [.word (encode (edgeOperation p))] := if_pos he

theorem edgeRequests_of_invalid {p : InPorts} (he : p.edgeValid = false) : edgeRequests p = [] :=
  if_neg (Bool.eq_false_iff.mp he)

theorem hostRequests_of_valid {p : InPorts} (hh : p.hostValid = true) : hostRequests p = [hostRequest p.hostOp] :=
  if_pos hh

theorem hostRequests_of_invalid {p : InPorts} (hh : p.hostValid = false) : hostRequests p = [] :=
  if_neg (Bool.eq_false_iff.mp hh)

/-- The host operations that have a word are those of R51's three rows. -/
theorem hostRequest_of_row {op : BitVec 2} {host : Instr}
    (h : (op = 0b00 ∧ host = .init) ∨ (op = 0b01 ∧ host = .getState) ∨ (op = 0b10 ∧ host = .takeCode)) :
    hostRequest op = .word (encode host) := by
  rcases h with ⟨rfl, rfl⟩ | ⟨rfl, rfl⟩ | ⟨rfl, rfl⟩ <;> rfl

theorem hostRequest_reserved {op : BitVec 2} (h : op = 0b11) : hostRequest op = .reservedHostOp := by
  rw [h]; rfl

/-- Without two requests `edgeFirst` has nothing to choose. -/
theorem cycleRequests_of_not_both {p : InPorts} (h : (p.edgeValid && p.hostValid) = false) (edgeFirst : Bool) :
    cycleRequests edgeFirst p = edgeRequests p ++ hostRequests p := by
  simp [cycleRequests, h]

/-- Two requests are performed in one of the two orders (20_memory.md R47). -/
theorem cycleRequests_of_both {p : InPorts} (he : p.edgeValid = true) (hh : p.hostValid = true) (edgeFirst : Bool) :
    cycleRequests edgeFirst p = [.word (encode (edgeOperation p)), hostRequest p.hostOp] ∨
      cycleRequests edgeFirst p = [hostRequest p.hostOp, .word (encode (edgeOperation p))] := by
  cases edgeFirst <;> simp [cycleRequests, he, hh, edgeRequests_of_valid, hostRequests_of_valid]

theorem perform_encode (i : Instr) (s : State) : perform (.word (encode i)) s = exec i s :=
  perform_word (decodeWord_encode i) s

theorem perform_reservedHostOp (s : State) : perform .reservedHostOp s = .refused .reservedHostOp := rfl

theorem run_succ_congr {s s' : State} (h : step s = step s') (k : Nat) :
    Host.Core.run Sys2Proof.core (k + 1) s = Host.Core.run Sys2Proof.core (k + 1) s' := by
  have hcore : Sys2Proof.core.step s = Sys2Proof.core.step s' := h
  simp only [Host.Core.run, hcore]

theorem run_succ_of_refused {s : State} {why : Refusal} (h : step s = .refused why) (k : Nat) :
    Host.Core.run Sys2Proof.core (k + 1) s = .refused why := by
  have hcore : Sys2Proof.core.step s = .refused why := h
  simp only [Host.Core.run, hcore]

/-- A reserved host operation is refused behind the word of an operation too. -/
theorem run_encode_reservedHostOp (i : Instr) (s : State) :
    Host.Core.run Sys2Proof.core 2 { s with waiting := [.word (encode i), .reservedHostOp] } =
      .refused .reservedHostOp := by
  rw [run_succ_of_step (step_encode_waiting i s _)]
  exact run_succ_of_refused ((step_waiting rfl).trans (perform_reservedHostOp _)) 0

/-! ### The step that reads a clock cycle -/

section
variable {s : State} {p : InPorts} {ps : List InPorts}

theorem setWaiting_nil (hw : s.waiting = []) : { s with waiting := [] } = s := by
  rw [← hw]

theorem step_reset_cycle (hw : s.waiting = []) (hc : s.cycles = p :: ps) (hr : p.rst = true) :
    step s = .next { State.reset with cycles := ps, draws := s.draws } := by
  rw [step_cycle hw hc, if_pos hr, ← setWaiting_nil (s := s.resetBlock) hw]
  rfl

/-- A cycle without a reset is read and its first request performed in one step. -/
theorem step_sample (hw : s.waiting = []) (hc : s.cycles = p :: ps) (hr : p.rst = false) :
    step s = performNext (s.sample p ps) := by
  rw [step_cycle hw hc, if_neg (Bool.eq_false_iff.mp hr)]

theorem sample_of_not_both (h : (p.edgeValid && p.hostValid) = false) :
    s.sample p ps = { s with waiting := edgeRequests p ++ hostRequests p, cycles := ps } := by
  simp [State.sample, h, cycleRequests_of_not_both]

theorem sample_of_both (he : p.edgeValid = true) (hh : p.hostValid = true) :
    s.sample p ps =
      { s with waiting := cycleRequests (Config.edgeFirst s.draws) p, cycles := ps, draws := s.draws + 1 } := by
  simp [State.sample, he, hh]

theorem step_no_request (hw : s.waiting = []) (hc : s.cycles = p :: ps) (hr : p.rst = false)
    (he : p.edgeValid = false) (hh : p.hostValid = false) : step s = exec .nop { s with cycles := ps } := by
  rw [step_sample hw hc hr, sample_of_not_both (by simp [he]), edgeRequests_of_invalid he,
    hostRequests_of_invalid hh, ← setWaiting_nil (s := { s with cycles := ps }) hw]
  exact performNext_nil rfl

theorem step_one_request {q : Request} (hw : s.waiting = []) (hc : s.cycles = p :: ps) (hr : p.rst = false)
    (hboth : (p.edgeValid && p.hostValid) = false) (hq : edgeRequests p ++ hostRequests p = [q]) :
    step s = perform q { s with cycles := ps } := by
  rw [step_sample hw hc hr, sample_of_not_both hboth, hq, ← setWaiting_nil (s := { s with cycles := ps }) hw]
  exact performNext_cons rfl

theorem step_edge_request (hw : s.waiting = []) (hc : s.cycles = p :: ps) (hr : p.rst = false)
    (he : p.edgeValid = true) (hh : p.hostValid = false) :
    step s = exec (edgeOperation p) { s with cycles := ps } := by
  have hq : edgeRequests p ++ hostRequests p = [.word (encode (edgeOperation p))] := by
    rw [edgeRequests_of_valid he, hostRequests_of_invalid hh, List.append_nil]
  rw [step_one_request hw hc hr (by simp [hh]) hq, perform_encode]

theorem step_host_request (hw : s.waiting = []) (hc : s.cycles = p :: ps) (hr : p.rst = false)
    (he : p.edgeValid = false) (hh : p.hostValid = true) :
    step s = perform (hostRequest p.hostOp) { s with cycles := ps } := by
  have hq : edgeRequests p ++ hostRequests p = [hostRequest p.hostOp] := by
    rw [edgeRequests_of_invalid he, hostRequests_of_valid hh, List.nil_append]
  exact step_one_request hw hc hr (by simp [he]) hq

theorem step_host_operation {host : Instr} (hw : s.waiting = []) (hc : s.cycles = p :: ps) (hr : p.rst = false)
    (he : p.edgeValid = false) (hh : p.hostValid = true) (hhost : hostRequest p.hostOp = .word (encode host)) :
    step s = exec host { s with cycles := ps } := by
  rw [step_host_request hw hc hr he hh, hhost, perform_encode]

theorem step_host_reserved (hw : s.waiting = []) (hc : s.cycles = p :: ps) (hr : p.rst = false)
    (he : p.edgeValid = false) (hh : p.hostValid = true) (hop : p.hostOp = 0b11) :
    step s = .refused .reservedHostOp := by
  rw [step_host_request hw hc hr he hh, hostRequest_reserved hop, perform_reservedHostOp]

/-- A run that begins with a cycle of two requests is the run from the state in which the two wait in one of their
two orders (20_memory.md R47). -/
theorem run_both_requests (hw : s.waiting = []) (hc : s.cycles = p :: ps) (hr : p.rst = false)
    (he : p.edgeValid = true) (hh : p.hostValid = true) :
    ∃ qs, (qs = [.word (encode (edgeOperation p)), hostRequest p.hostOp] ∨
        qs = [hostRequest p.hostOp, .word (encode (edgeOperation p))]) ∧
      ∀ k, Host.Core.run Sys2Proof.core (k + 1) s =
        Host.Core.run Sys2Proof.core (k + 1) { s with waiting := qs, cycles := ps, draws := s.draws + 1 } := by
  have horder := cycleRequests_of_both he hh (Config.edgeFirst s.draws)
  refine ⟨_, horder, fun k => ?_⟩
  have hstep : step s = step (s.sample p ps) := by
    rw [step_sample hw hc hr]
    rcases horder with h | h <;> rw [performNext_cons h, step_waiting h]
  rw [← sample_of_both he hh, run_succ_congr hstep]

/-- Two operations whose words wait take two steps, in their order. -/
theorem run_two_operations (hw : s.waiting = []) (i j : Instr) :
    Host.Core.run Sys2Proof.core 2 { s with waiting := [.word (encode i), .word (encode j)] } = execAll [i, j] s := by
  have htrace := traceRunsItsOperationsInOrder [i, j] s []
  rwa [setWaiting_nil hw] at htrace

/-- An edge request and a host operation of one cycle are both performed, in one of the two orders. -/
theorem run_edge_and_host {host : Instr} (hw : s.waiting = []) (hc : s.cycles = p :: ps) (hr : p.rst = false)
    (he : p.edgeValid = true) (hh : p.hostValid = true) (hhost : hostRequest p.hostOp = .word (encode host)) :
    Host.Core.run Sys2Proof.core 2 s =
        execAll [edgeOperation p, host] { s with cycles := ps, draws := s.draws + 1 } ∨
      Host.Core.run Sys2Proof.core 2 s =
        execAll [host, edgeOperation p] { s with cycles := ps, draws := s.draws + 1 } := by
  obtain ⟨qs, horder, hrun⟩ := run_both_requests hw hc hr he hh
  rw [hhost] at horder
  rw [hrun 1]
  rcases horder with rfl | rfl
  · exact .inl (run_two_operations (s := { s with cycles := ps, draws := s.draws + 1 }) hw _ _)
  · exact .inr (run_two_operations (s := { s with cycles := ps, draws := s.draws + 1 }) hw _ _)

/-- A reserved host operation beside an edge request is refused in the first or the second step. -/
theorem run_edge_and_reserved (hw : s.waiting = []) (hc : s.cycles = p :: ps) (hr : p.rst = false)
    (he : p.edgeValid = true) (hh : p.hostValid = true) (hop : p.hostOp = 0b11) :
    Host.Core.run Sys2Proof.core 2 s = .refused .reservedHostOp := by
  obtain ⟨qs, horder, hrun⟩ := run_both_requests hw hc hr he hh
  rw [hostRequest_reserved hop] at horder
  rw [hrun 1]
  rcases horder with rfl | rfl
  · exact run_encode_reservedHostOp _ { s with cycles := ps, draws := s.draws + 1 }
  · exact run_succ_of_refused ((step_waiting rfl).trans (perform_reservedHostOp _)) 1

end

/-- Settles O5: one lemma for each row of R51. -/
theorem portsSelectTheOperations : Obligations.PortsSelectTheOperations := by
  intro s p ps hw hc
  refine ⟨step_reset_cycle hw hc, step_no_request hw hc, step_edge_request hw hc, fun hr he hh => ?_,
    fun hr he hh => ?_⟩
  · exact ⟨fun hop => step_host_operation hw hc hr he hh (hostRequest_of_row (.inl ⟨hop, rfl⟩)),
      fun hop => step_host_operation hw hc hr he hh (hostRequest_of_row (.inr (.inl ⟨hop, rfl⟩))),
      fun hop => step_host_operation hw hc hr he hh (hostRequest_of_row (.inr (.inr ⟨hop, rfl⟩))),
      step_host_reserved hw hc hr he hh⟩
  · exact ⟨fun _ hrow => run_edge_and_host hw hc hr he hh (hostRequest_of_row hrow),
      run_edge_and_reserved hw hc hr he hh⟩

/-- Settles O6: the decoder rejects both kinds of reserved words, and the third kind has no word. -/
theorem reservedRequestsAreRefused : Obligations.ReservedRequestsAreRefused := by
  refine ⟨fun s w qs hw h => ?_, fun _ _ _ => step_host_reserved, fun _ _ hw => step_waiting hw⟩
  obtain ⟨why, hwhy⟩ : ∃ why, decodeWord w = .error why :=
    h.elim decodeWord_reserved_op fun ⟨hop, ht⟩ => decodeWord_reserved_operand hop ht
  exact ⟨why, hwhy, by rw [step_waiting hw, perform_reserved hwhy]⟩

/-! ### The responses (R57) -/

/-- Only GET_STATE and TAKE_CODE respond. -/
theorem responseOf_silent {i : Instr} (hget : i ≠ .getState) (htake : i ≠ .takeCode) (r : Regs Config.tsWidth) :
    responseOf i r = .silent := by
  cases i with
  | getState => exact absurd rfl hget
  | takeCode => exact absurd rfl htake
  | nop | edgeFall | edgeRise | init => rfl

/-- TAKE_CODE's response in one form: `V` is `pending`, and with nothing pending the other fields are 0 (R57). -/
theorem takeResponse_eq (r : Regs Config.tsWidth) :
    takeResponse Config.params r =
      .take r.pending (if r.pending then r.outCode else 0) (if r.pending then r.outTs else 0) := by
  have htakeable : r.takeable Config.params = r.pending := rfl
  cases hp : r.pending <;> simp [takeResponse, htakeable, hp]

/-- Settles O18: GET_STATE's response is the state's code, TAKE_CODE's word has its fields where R57 puts them, and the
other operations are silent. -/
theorem responsesHaveTheirFormats : Obligations.ResponsesHaveTheirFormats := by
  refine ⟨fun s => ⟨_, exec_eq _ s, rfl, rfl⟩, fun s => ?_, fun s i hget htake => ⟨_, exec_eq i s, ?_⟩⟩
  · have hrsp : responseOf .takeCode s.regs = _ := takeResponse_eq s.regs
    refine ⟨_, _, exec_eq _ s, ?_, ?_, takeWord_fields _ _ _⟩ <;> rw [State.finish_rsp, hrsp] <;> rfl
  · rw [State.finish_rsp, responseOf_silent hget htake]
    rfl

/-! ### The macro `necframe` (R62) -/

/-- The marks after the preamble's, one for each bit: the bit's space and the 560 µs mark that ends its cell. `t` is the
falling edge of the mark before. -/
def necMarks (t : Timestamp) : List Bool → List DataMark
  | []      => []
  | b :: bs =>
    ⟨b, t + 560 + dataSpace b, t + 560 + dataSpace b + 560⟩ :: necMarks (t + 560 + dataSpace b) bs

/-- The preamble of `necframe`: the start mark, and the first data mark. -/
def necPreamble (t : Timestamp) : Preamble := ⟨t, t + 9000, t + 13500, t + 13500 + 560⟩

theorem dataMarkOps_eq (t : Timestamp) (bs : List Bool) :
    dataMarkOps t bs = markOps t 560 ++ (necMarks t bs).flatMap DataMark.ops := by
  induction bs generalizing t with
  | nil => rfl
  | cons b bs ih =>
    rw [dataMarkOps, ih]
    rfl

theorem necframeOps_eq (t : Timestamp) (code : Code) :
    necframeOps t code = frameOps (necPreamble t) (necMarks (t + 13500) (sentBits code)) := by
  rw [necframeOps, dataMarkOps_eq]
  rfl

theorem necMarks_bits (t : Timestamp) (bs : List Bool) : (necMarks t bs).map DataMark.bit = bs := by
  induction bs generalizing t with
  | nil => rfl
  | cons b bs ih => rw [necMarks, List.map_cons, ih]

/-- A data mark of `necframe` is 560 µs long and its cell is the mark before it with the bit's space. -/
theorem necMark_durations (t space : BitVec 32) :
    t + 560 + space + 560 - (t + 560 + space) = 560 ∧ t + 560 + space + 560 - (t + 560) = space + 560 := by
  constructor <;> bv_omega

theorem necMarks_timed (t : Timestamp) (bs : List Bool) : AllTimed (t + 560) (necMarks t bs) := by
  induction bs generalizing t with
  | nil => trivial
  | cons b bs ih =>
    refine ⟨?_, ih _⟩
    obtain ⟨hmark, hcell⟩ := necMark_durations t (dataSpace b)
    simp only [DataMark.Timed, hmark, hcell]
    cases b <;> decide

/-- The marks and the cell of `necframe`'s preamble: 9000 µs, 560 µs, and 4500 µs of space before the second mark. -/
theorem necPreamble_durations (t : BitVec 32) :
    t + 9000 - t = 9000 ∧ t + 13500 + 560 - (t + 13500) = 560 ∧ t + 13500 + 560 - (t + 9000) = 5060 := by
  refine ⟨?_, ?_, ?_⟩ <;> bv_omega

theorem necPreamble_marked (t : Timestamp) : (necPreamble t).Marked := by
  obtain ⟨hstart, hdata, _⟩ := necPreamble_durations t
  simp only [Preamble.Marked, necPreamble, hstart, hdata]
  decide

theorem necPreamble_normal (t : Timestamp) : (necPreamble t).Normal := by
  obtain ⟨_, _, hcell⟩ := necPreamble_durations t
  simp only [Preamble.Normal, necPreamble, hcell]
  decide

/-- Each bit adds a mark of two edges. -/
theorem dataMarkOps_length (t : Timestamp) (bs : List Bool) : (dataMarkOps t bs).length = 2 * bs.length + 2 := by
  induction bs generalizing t with
  | nil => rfl
  | cons b bs ih =>
    rw [dataMarkOps, List.length_append, ih, List.length_cons]
    change 2 + _ = _
    omega

theorem necframeOps_length (t : Timestamp) (code : Code) : (necframeOps t code).length = 68 := by
  rw [necframeOps, List.length_append, dataMarkOps_length, sentBits, List.length_map, List.length_range]
  rfl

/-- Settles O46: the macro's operations are those of its preamble and its data marks, which are in their bands. -/
theorem necframeMacroIsWellTimed : Obligations.NecframeMacroIsWellTimed := fun t code =>
  ⟨necPreamble t, necMarks (t + 13500) (sentBits code), necframeOps_eq t code, necPreamble_marked t,
    necPreamble_normal t, necMarks_timed _ _, necMarks_bits _ _, rfl, necframeOps_length t code⟩

end Sys2Proof.Proofs.Encoding
end

section
/-! PROOFS. The statements of 40_edge_classifier.md: what an edge records and how it is classified (R65 to R71), and the
frames that the classes lead through (R74). -/
namespace Sys2Proof.Proofs.EdgeClassifier

open Sys2Proof.Machine Sys2Proof.Safety

variable {W : Nat}

/-! ### The classes of a rising edge -/

/-- The class of a data mark comes from its cell, so the mark's own two classes are not among the answers. -/
theorem classify_data_ne {b : Config.Bands} {mark : BitVec W}
    (h : ¬(b.startLo < mark.toNat ∧ mark.toNat < b.startHi)) (h' : ¬(mark.toNat < b.markLo ∨ b.markHi < mark.toNat))
    (cell : BitVec W) (st : DecoderState) :
    classify b mark cell st ≠ .startPulse ∧ classify b mark cell st ≠ .pulseMalformed := by
  rw [classify_data h h']
  constructor <;> split_ifs <;> simp

theorem classify_eq_startPulse_iff (b : Config.Bands) (mark cell : BitVec W) (st : DecoderState) :
    classify b mark cell st = .startPulse ↔ b.startLo < mark.toNat ∧ mark.toNat < b.startHi := by
  by_cases h : b.startLo < mark.toNat ∧ mark.toNat < b.startHi
  · simp [classify_start h, h]
  · by_cases h' : mark.toNat < b.markLo ∨ b.markHi < mark.toNat
    · simp [classify_malformed h h', h]
    · simp only [(classify_data_ne h h' cell st).1, h]

theorem classify_eq_pulseMalformed_iff (b : Config.Bands) (mark cell : BitVec W) (st : DecoderState) :
    classify b mark cell st = .pulseMalformed ↔
      ¬(b.startLo < mark.toNat ∧ mark.toNat < b.startHi) ∧ (mark.toNat < b.markLo ∨ b.markHi < mark.toNat) := by
  by_cases h : b.startLo < mark.toNat ∧ mark.toNat < b.startHi
  · simp [classify_start h, h]
  · by_cases h' : mark.toNat < b.markLo ∨ b.markHi < mark.toNat
    · simp only [classify_malformed h h', h, h', not_false_eq_true, and_self]
    · simp only [(classify_data_ne h h' cell st).2, h', and_false]

/-- Settles O22: a start pulse, a malformed mark, or a data mark, which the cell and the state decide. -/
theorem classesFollowTheBands : Obligations.ClassesFollowTheBands := by
  intro mark cell st
  by_cases hstart : 8500 < mark.toNat ∧ mark.toNat < 9500
  · rw [if_pos hstart]
    exact classify_start hstart cell st
  · rw [if_neg hstart]
    by_cases hmal : mark.toNat < 520 ∨ 700 < mark.toNat
    · rw [if_pos hmal]
      exact classify_malformed hstart hmal cell st
    · rw [if_neg hmal]
      exact classify_data_source (by omega) (by omega) cell st

/-- Settles O23: the two classes of a mark alone, with the limits of R6. -/
theorem malformedMarksAreExactlyThese : Obligations.MalformedMarksAreExactlyThese := by
  intro mark cell st
  refine ⟨classify_eq_startPulse_iff _ mark cell st, (classify_eq_pulseMalformed_iff _ mark cell st).trans ?_⟩
  simp only [Config.params, Config.Bands.source]
  omega

/-- Settles O24: the classes of a mark alone arise in every state, those of a data mark as its state says. -/
theorem eachStateProducesItsClasses : Obligations.EachStateProducesItsClasses := by
  intro W b mark cell st
  by_cases h : b.startLo < mark.toNat ∧ mark.toNat < b.startHi
  · rw [classify_start h]
    cases st <;> simp
  · by_cases h' : mark.toNat < b.markLo ∨ b.markHi < mark.toNat
    · rw [classify_malformed h h']
      cases st <;> simp
    · rw [classify_data h h']
      cases st with
      | preambleWait | active => simp only [reduceCtorEq, if_true, if_false]; split_ifs <;> simp
      | idle | repeatFrame | complete | error => simp

/-! ### What the edge operations record -/

theorem edgeFall_unarmed (t : BitVec W) {r : Regs W} (h : r.armed = false) : edgeFall t r = r := by
  simp [edgeFall, h]

/-- A duration given as a number, the difference modulo `2^32`, is the wrap-around subtraction (R9). -/
theorem eq_sub_of_toNat {d t u : BitVec 32} (h : d.toNat = (t.toNat + 2 ^ 32 - u.toNat) % 2 ^ 32) : d = t - u := by
  bv_omega

/-- Settles O20. -/
theorem edgeFallRecordsItsTimestamp : Obligations.EdgeFallRecordsItsTimestamp := by
  intro s t
  constructor <;> intro h <;> rw [exec_eq]
  · rw [regsAfter_edgeFall h]
    rfl
  · rw [regsAfter, edgeFall_unarmed t h]
    rfl

/-- Settles O21: the two durations are the differences modulo `2^32` to the stored timestamps. -/
theorem edgeRiseClassifiesThenSteps : Obligations.EdgeRiseClassifiesThenSteps := by
  intro s t
  constructor
  · intro h mark cell hmark hcell
    rw [eq_sub_of_toNat hmark, eq_sub_of_toNat hcell]
    exact exec_edgeRise_armed h t
  · intro h
    rw [exec_eq, regsAfter, edgeRise_unarmed _ t _ h]
    rfl

/-! ### Whole marks -/

/-- The registers after a mark from `fall` to `rise`: its falling edge, then its rising edge. -/
def regsAfterMark (fall rise : Timestamp) (r : Regs Config.tsWidth) : Regs Config.tsWidth :=
  edgeRise Config.params rise (edgeFall fall r)

theorem execAll_mark (fall rise : Timestamp) (is : List Instr) (s : State) :
    execAll (.edgeFall fall :: .edgeRise rise :: is) s =
      execAll is (s.finish (regsAfterMark fall rise s.regs) .silent) := by
  rw [execAll_cons, execAll_cons]
  rfl

section
variable {r : Regs Config.tsWidth} {fall rise : Timestamp}

/-- Both edges of a mark are recorded, and the state machine takes one step on its class. -/
theorem regsAfterMark_of_class {cls : EdgeClass} (harmed : r.armed = true)
    (hcls : classify Config.Bands.source (rise - fall) (rise - r.lastRise) r.st = cls) :
    regsAfterMark fall rise r = fsmStep Config.params cls rise { r with lastFall := fall, lastRise := rise } := by
  have hfall : edgeFall fall r = { r with lastFall := fall } := if_pos harmed
  rw [regsAfterMark, hfall, edgeRise_of_armed Config.params rise { r with lastFall := fall } harmed, ← hcls]
  rfl

/-- A start mark begins a frame from every state (41_frame_state_machine.md R81). -/
theorem regsAfterMark_start (harmed : r.armed = true)
    (hmark : 8500 < (rise - fall).toNat ∧ (rise - fall).toNat < 9500) :
    regsAfterMark fall rise r = Regs.startFrame { r with lastFall := fall, lastRise := rise } :=
  regsAfterMark_of_class harmed (classify_start hmark _ _)

/-- A data mark in PreambleWait with a new frame's cell (41_frame_state_machine.md R83). -/
theorem regsAfterMark_preambleCell (harmed : r.armed = true) (hst : r.st = .preambleWait)
    (hlo : 520 ≤ (rise - fall).toNat) (hhi : (rise - fall).toNat ≤ 700)
    (hcell : 4800 < (rise - r.lastRise).toNat ∧ (rise - r.lastRise).toNat < 5300) :
    regsAfterMark fall rise r = Regs.startBits { r with lastFall := fall, lastRise := rise } := by
  rw [regsAfterMark_of_class harmed (classify_data_source hlo hhi _ _), if_pos hst, if_pos hcell]
  exact if_pos hst

/-- A data mark in PreambleWait with a repeat frame's cell (41_frame_state_machine.md R84). -/
theorem regsAfterMark_repeatCell (harmed : r.armed = true) (hst : r.st = .preambleWait)
    (hlo : 520 ≤ (rise - fall).toNat) (hhi : (rise - fall).toNat ≤ 700)
    (hcell : 2800 < (rise - r.lastRise).toNat ∧ (rise - r.lastRise).toNat < 3300) :
    regsAfterMark fall rise r = Regs.enterRepeat true { r with lastFall := fall, lastRise := rise } := by
  rw [regsAfterMark_of_class harmed (classify_data_source hlo hhi _ _), if_pos hst, if_neg (by omega), if_pos hcell]
  exact if_pos hst

/-- A well-timed data mark in Active is accepted with its bit (41_frame_state_machine.md R87, R88). -/
theorem regsAfterMark_data {m : DataMark} (harmed : r.armed = true) (hst : r.st = .active)
    (htimed : m.Timed r.lastRise) :
    regsAfterMark m.fall m.rise r =
      acceptBit Config.params m.bit m.rise { r with lastFall := m.fall, lastRise := m.rise } := by
  obtain ⟨hlo, hhi, hcell⟩ := htimed
  have hne : r.st ≠ .preambleWait := by simp [hst]
  rw [regsAfterMark_of_class harmed (classify_data_source hlo hhi _ _), if_neg hne, if_pos hst]
  cases hbit : m.bit with
  | false =>
    simp only [hbit, Bool.false_eq_true, if_false] at hcell
    rw [if_pos hcell]
    exact if_pos hst
  | true =>
    simp only [hbit, if_true] at hcell
    rw [if_neg (by omega), if_pos hcell]
    exact if_pos hst

end

/-! ### The preamble and the repeat frame -/

/-- The registers after the two marks of a preamble. -/
def regsAfterPreamble (p : Preamble) (r : Regs Config.tsWidth) : Regs Config.tsWidth :=
  regsAfterMark p.fall p.rise (regsAfterMark p.startFall p.startRise r)

theorem execAll_preamble (p : Preamble) (is : List Instr) (s : State) :
    execAll (p.ops ++ is) s = execAll is (s.finish (regsAfterPreamble p s.regs) .silent) := by
  simp only [Preamble.ops, List.cons_append, List.nil_append, execAll_mark]
  rfl

section
variable {r : Regs Config.tsWidth} {p : Preamble}

/-- After a new frame's preamble the block is in Active and has taken no bit. -/
theorem regsAfterPreamble_normal (harmed : r.armed = true) (hmarked : p.Marked) (hnormal : p.Normal) :
    regsAfterPreamble p r =
      { r with st := .active, bitIndex := 0, codeBits := 0, lastFall := p.fall, lastRise := p.rise } := by
  obtain ⟨hstartLo, hstartHi, hlo, hhi⟩ := hmarked
  rw [regsAfterPreamble, regsAfterMark_start harmed ⟨hstartLo, hstartHi⟩]
  exact regsAfterMark_preambleCell harmed rfl hlo hhi hnormal

/-- After a repeat frame's preamble the block is in Repeat and holds the last code, which is no longer taken. -/
theorem regsAfterPreamble_repeated (harmed : r.armed = true) (hmarked : p.Marked) (hrepeated : p.Repeated) :
    regsAfterPreamble p r =
      { r with st := .repeatFrame, bitIndex := 0, lastFall := p.fall, lastRise := p.rise, pending := false } := by
  obtain ⟨hstartLo, hstartHi, hlo, hhi⟩ := hmarked
  rw [regsAfterPreamble, regsAfterMark_start harmed ⟨hstartLo, hstartHi⟩]
  exact regsAfterMark_repeatCell harmed rfl hlo hhi hrepeated

end

/-- Settles O45: a repeat frame is a preamble alone. -/
theorem repeatFrameKeepsTheLastCode : Obligations.RepeatFrameKeepsTheLastCode := by
  intro s p harmed hmarked hrepeated
  rw [← List.append_nil p.ops, execAll_preamble, regsAfterPreamble_repeated harmed hmarked hrepeated]
  rfl

/-! ### The bits of a frame -/

/-- The registers after the data marks of a frame. -/
def regsAfterMarks : List DataMark → Regs Config.tsWidth → Regs Config.tsWidth
  | [], r      => r
  | m :: ms, r => regsAfterMarks ms (regsAfterMark m.fall m.rise r)

theorem execAll_dataMarks (ms : List DataMark) (s : State) (r : Regs Config.tsWidth) :
    execAll (ms.flatMap DataMark.ops) (s.finish r .silent) = .next (s.finish (regsAfterMarks ms r) .silent) := by
  induction ms generalizing r with
  | nil => rfl
  | cons m ms ih =>
    rw [List.flatMap_cons, DataMark.ops, List.cons_append, List.cons_append, List.nil_append, execAll_mark]
    exact ih _

/-- In the middle of a frame: the block is in Active and has taken the first `n` bits of `code`. -/
structure TakenBits (code : Code) (n : Nat) (r : Regs Config.tsWidth) : Prop where
  armed    : r.armed = true
  st       : r.st = .active
  bitIndex : r.bitIndex.toNat = n
  codeBits : ∀ j < n, r.codeBits.getLsbD j = code.getLsbD j

section
variable {code : Code} {n : Nat} {r : Regs Config.tsWidth}

/-- The next bit of the code, inserted, is one more bit of it. -/
theorem TakenBits.insertBit_next (h : TakenBits code n r) (hn : n < 32) {j : Nat} (hj : j < n + 1) :
    (insertBit r.codeBits r.bitIndex (code.getLsbD n)).getLsbD j = code.getLsbD j := by
  rw [insertBit_getLsbD _ _ _ _ (by omega), h.bitIndex]
  split_ifs with hjn
  · rw [hjn]
  · exact h.codeBits j (by omega)

theorem TakenBits.insertBit_last (h : TakenBits code 31 r) :
    insertBit r.codeBits r.bitIndex (code.getLsbD 31) = code :=
  BitVec.eq_of_getLsbD_eq fun _ hj => h.insertBit_next (by decide) hj

/-- A mark that carries the next bit, but not the last, takes it. -/
theorem TakenBits.mark {m : DataMark} (h : TakenBits code n r) (hn : n < 31) (htimed : m.Timed r.lastRise)
    (hbit : m.bit = code.getLsbD n) :
    regsAfterMark m.fall m.rise r = Regs.takeBit (code.getLsbD n) { r with lastFall := m.fall, lastRise := m.rise } ∧
      TakenBits code (n + 1) (regsAfterMark m.fall m.rise r) := by
  have hidx := h.bitIndex
  have hne : r.bitIndex + 1 ≠ 32 := by bv_omega
  have hmark : regsAfterMark m.fall m.rise r =
      Regs.takeBit (code.getLsbD n) { r with lastFall := m.fall, lastRise := m.rise } := by
    rw [regsAfterMark_data h.armed h.st htimed, hbit]
    exact if_neg hne
  refine ⟨hmark, ?_⟩
  rw [hmark]
  exact
    { armed := h.armed
      st := h.st
      bitIndex := show (r.bitIndex + 1).toNat = n + 1 by bv_omega
      codeBits := fun _ hj => h.insertBit_next (by omega) hj }

/-- The mark that carries the last bit has the whole code checked. -/
theorem TakenBits.lastMark {m : DataMark} (h : TakenBits code 31 r) (htimed : m.Timed r.lastRise)
    (hbit : m.bit = code.getLsbD 31) :
    regsAfterMark m.fall m.rise r = validate Config.params code m.rise
      { r with bitIndex := 32, codeBits := code, lastFall := m.fall, lastRise := m.rise } := by
  have hidx := h.bitIndex
  have hlast : r.bitIndex + 1 = 32 := by bv_omega
  rw [regsAfterMark_data h.armed h.st htimed, hbit]
  refine (if_pos hlast).trans ?_
  simp only [Regs.takeBit, h.insertBit_last, hlast]

/-- The marks that carry the rest of a code, from bit `n` on, have the whole code checked at the last one. -/
theorem TakenBits.marks {m last : DataMark} {ms : List DataMark} (h : TakenBits code n r)
    (hlen : n + ms.length = 31) (htimed : AllTimed r.lastRise (m :: ms))
    (hbits : (m :: ms).map DataMark.bit = (List.range' n (ms.length + 1)).map code.getLsbD)
    (hlast : (m :: ms).getLast? = some last) :
    regsAfterMarks (m :: ms) r = validate Config.params code last.rise
      { r with bitIndex := 32, codeBits := code, lastFall := last.fall, lastRise := last.rise } := by
  induction ms generalizing m n r with
  | nil =>
    obtain rfl : n = 31 := hlen
    obtain rfl : m = last := by simpa using hlast
    obtain ⟨hmark, _⟩ := htimed
    obtain ⟨hbit, _⟩ := List.cons.inj hbits
    exact h.lastMark hmark hbit
  | cons m' ms ih =>
    rw [List.length_cons] at hlen
    obtain ⟨hmark, hrest⟩ := htimed
    obtain ⟨hbit, hbits⟩ := List.cons.inj hbits
    obtain ⟨hregs, hnext⟩ := h.mark (by omega) hmark hbit
    have hrise : (regsAfterMark m.fall m.rise r).lastRise = m.rise := by rw [hregs]; rfl
    rw [regsAfterMarks, ih hnext (by omega) (by rwa [hrise]) hbits (by simpa using hlast), hregs]
    rfl

end

/-- The validator with R97's policy, field by field (42_frame_validator.md R96, R97). -/
theorem validate_params (code : Code) (t : Timestamp) (r : Regs Config.tsWidth) :
    validate Config.params code t r =
      { r with
        st := if codeOk code then .complete else .error
        outCode := if codeOk code then code else r.outCode
        outTs := if codeOk code then t else r.outTs
        pending := codeOk code } := by
  cases h : codeOk code <;> simp only [validate, h] <;> rfl

/-- Settles O44: the preamble leads into Active, and each mark after it takes the next bit of the code. -/
theorem wellTimedFrameDeliversItsCode : Obligations.WellTimedFrameDeliversItsCode := by
  intro s p ms last code harmed hmarked hnormal htimed hlen hlast hbits
  obtain _ | ⟨m, ms⟩ := ms
  · simp at hlen
  have hlen' : ms.length = 31 := by simpa using hlen
  have hpre := regsAfterPreamble_normal harmed hmarked hnormal
  have hstart : TakenBits code 0 (regsAfterPreamble p s.regs) := by
    rw [hpre]
    exact ⟨harmed, rfl, rfl, nofun⟩
  have hrise : (regsAfterPreamble p s.regs).lastRise = p.rise := by rw [hpre]
  have hbits' : (m :: ms).map DataMark.bit = (List.range' 0 (ms.length + 1)).map code.getLsbD := by
    rw [hbits, hlen', sentBits, List.range_eq_range']
  have hmarks := hstart.marks (by omega) (by rwa [hrise]) hbits' hlast
  rw [frameOps, execAll_preamble, execAll_dataMarks, hmarks, hpre, validate_params, ← harmed]
  rfl

end Sys2Proof.Proofs.EdgeClassifier
end

section
/-! PROOFS. The statements of 41_frame_state_machine.md: the transitions of a rising edge (R81 to R90), and that the
accumulator's value outside a frame is not observable (R94). -/
namespace Sys2Proof.Proofs.FrameStateMachine

open Sys2Proof.Machine Sys2Proof.Safety Sys2Proof.Proofs.EdgeClassifier

variable {W : Nat}

/-! ### A rising edge while armed -/

section
variable {s : State} {t : Timestamp} {cls : EdgeClass}

/-- A rising edge alone is the end of the mark that began at the recorded falling edge. -/
theorem exec_edgeRise_eq_mark (harmed : s.regs.armed = true) (t : Timestamp) :
    exec (.edgeRise t) s = .next (s.finish (regsAfterMark s.regs.lastFall t s.regs) .silent) := by
  rw [exec_edgeRise_armed harmed, regsAfterMark_of_class harmed rfl]

/-- The state machine takes one step on the edge's class. -/
theorem exec_edgeRise_of_class (harmed : s.regs.armed = true)
    (hcls : classify Config.Bands.source (t - s.regs.lastFall) (t - s.regs.lastRise) s.regs.st = cls) :
    exec (.edgeRise t) s =
      .next (s.finish (fsmStep Config.params cls t { s.regs with lastRise := t }) .silent) := by
  rw [exec_edgeRise_armed harmed, hcls]

/-- A data mark whose cell is in the band of `b` is accepted with that bit. -/
theorem exec_edgeRise_data {b : Bool} (harmed : s.regs.armed = true) (hst : s.regs.st = .active)
    (htimed : DataMark.Timed s.regs.lastRise ⟨b, s.regs.lastFall, t⟩) :
    exec (.edgeRise t) s =
      .next (s.finish (acceptBit Config.params b t { s.regs with lastRise := t }) .silent) := by
  have hregs : regsAfterMark s.regs.lastFall t s.regs = acceptBit Config.params b t { s.regs with lastRise := t } :=
    regsAfterMark_data harmed hst htimed
  rw [exec_edgeRise_eq_mark harmed, hregs]

end

/-- Settles O25: a start mark begins a frame from every state. -/
theorem startPulseRestartsTheFrame : Obligations.StartPulseRestartsTheFrame := by
  intro s t harmed hlo hhi
  rw [exec_edgeRise_eq_mark harmed, regsAfterMark_start harmed ⟨hlo, hhi⟩]
  rfl

/-- Settles O26: a mark in neither of the two mark bands is malformed in every state. -/
theorem malformedPulseEntersError : Obligations.MalformedPulseEntersError := by
  intro s t harmed hmark
  have hcls : classify Config.Bands.source (t - s.regs.lastFall) (t - s.regs.lastRise) s.regs.st = .pulseMalformed :=
    (classify_eq_pulseMalformed_iff _ _ _ _).mpr (by simp only [Config.Bands.source]; omega)
  rw [exec_edgeRise_of_class harmed hcls]
  rfl

/-- Settles O27. -/
theorem preambleCellStartsTheBits : Obligations.PreambleCellStartsTheBits := by
  intro s t harmed hst hlo hhi hcellLo hcellHi
  rw [exec_edgeRise_eq_mark harmed, regsAfterMark_preambleCell harmed hst hlo hhi ⟨hcellLo, hcellHi⟩]
  rfl

/-- Settles O28. -/
theorem repeatCellEntersRepeat : Obligations.RepeatCellEntersRepeat := by
  intro s t harmed hst hlo hhi hcellLo hcellHi
  rw [exec_edgeRise_eq_mark harmed, regsAfterMark_repeatCell harmed hst hlo hhi ⟨hcellLo, hcellHi⟩]
  rfl

/-- Settles O29: the cell's class is GapOther, which changes nothing in PreambleWait. -/
theorem otherCellInPreambleIsANoOp : Obligations.OtherCellInPreambleIsANoOp := by
  intro s t harmed hst hlo hhi hnormal hrepeat
  have hcls := classify_data_source hlo hhi (t - s.regs.lastRise) s.regs.st
  rw [if_pos hst, if_neg hnormal, if_neg hrepeat] at hcls
  rw [exec_edgeRise_of_class harmed hcls]
  simp only [fsmStep, hst]
  rfl

/-- Settles O30: the cell's class is GapOther, which enters Error in Active. -/
theorem otherCellInActiveEntersError : Obligations.OtherCellInActiveEntersError := by
  intro s t harmed hst hlo hhi hzero hone
  have hcls := classify_data_source hlo hhi (t - s.regs.lastRise) s.regs.st
  rw [if_neg (by simp [hst]), if_pos hst, if_neg hzero, if_neg hone] at hcls
  rw [exec_edgeRise_of_class harmed hcls]
  simp only [fsmStep, hst]
  rfl

/-- Settles O33: outside PreambleWait and Active a data mark's class is MarkIgnored. -/
theorem dataMarkOutsideAFrameIsIgnored : Obligations.DataMarkOutsideAFrameIsIgnored := by
  intro s t harmed hst hlo hhi
  have hpreamble : s.regs.st ≠ .preambleWait := by intro h; simp [h] at hst
  have hactive : s.regs.st ≠ .active := by intro h; simp [h] at hst
  have hcls := classify_data_source hlo hhi (t - s.regs.lastRise) s.regs.st
  rw [if_neg hpreamble, if_neg hactive] at hcls
  rw [exec_edgeRise_of_class harmed hcls]
  rfl

/-! ### The bits of a frame -/

section
variable (c : Config.Params) (b : Bool) (t : BitVec W) (r : Regs W)

/-- Whether or not the validator runs, the bit is inserted and counted (R87 to R89). -/
theorem acceptBit_accumulator :
    (acceptBit c b t r).codeBits = insertBit r.codeBits r.bitIndex b ∧
      (acceptBit c b t r).bitIndex = r.bitIndex + 1 := by
  rcases acceptBit_cases c b t r with ⟨_, h⟩ | ⟨_, _, h⟩ | ⟨_, _, h⟩ <;> rw [h] <;> exact ⟨rfl, rfl⟩

/-- Before the 32nd bit the validator does not run. -/
theorem acceptBit_of_ne_last {r : Regs W} (h : r.bitIndex + 1 ≠ 32) : acceptBit c b t r = r.takeBit b :=
  if_neg h

end

/-- Settles O31: the bit is inserted and counted, and before the 32nd bit that is all. -/
theorem dataCellAcceptsItsBit : Obligations.DataCellAcceptsItsBit := by
  intro s t b harmed hst hlo hhi hcell hidx
  obtain ⟨hcode, hnext⟩ := acceptBit_accumulator Config.params b t { s.regs with lastRise := t }
  refine ⟨_, _, _, exec_edgeRise_data harmed hst ⟨hlo, hhi, hcell⟩, hcode, hnext, by bv_omega,
    fun j hj => insertBit_getLsbD _ _ b j hj, fun hlt => ?_⟩
  have hmore : s.regs.bitIndex + 1 ≠ 32 := by bv_omega
  rw [acceptBit_of_ne_last Config.params b t (r := { s.regs with lastRise := t }) hmore]
  rfl

/-- Settles O32: in Active the first 31 bits of the code are taken, so this mark has the whole code checked. -/
theorem lastBitIsValidatedInItsStep : Obligations.LastBitIsValidatedInItsStep := by
  intro s t b harmed hst hlo hhi hcell hidx
  have hbits : ∀ j < 32, (insertBit s.regs.codeBits 31 b).getLsbD j = if j = 31 then b else s.regs.codeBits.getLsbD j :=
    fun j hj => insertBit_getLsbD _ 31 b j hj
  have htaken : TakenBits (insertBit s.regs.codeBits 31 b) 31 s.regs :=
    { armed := harmed
      st := hst
      bitIndex := by rw [hidx]; rfl
      codeBits := fun j hj => by rw [hbits j (by omega), if_neg (by omega)] }
  have hstep := exec_edgeRise_eq_mark harmed t
  rw [htaken.lastMark (m := ⟨b, s.regs.lastFall, t⟩) ⟨hlo, hhi, hcell⟩ (hbits 31 (by decide)).symm,
    validate_params] at hstep
  refine ⟨_, hbits, fun hgood => ?_, fun hbad => ?_⟩
  · have hok : codeOk (insertBit s.regs.codeBits 31 b) = true := beq_iff_eq.mpr hgood
    rw [hok] at hstep
    exact hstep
  · have hok : codeOk (insertBit s.regs.codeBits 31 b) = false := beq_eq_false_iff_ne.mpr hbad
    rw [hok] at hstep
    exact hstep

/-! ### The accumulator outside a frame: registers (R94) -/

section
variable {r r' : Regs W}

theorem sameToTheHost_refl (r : Regs W) : SameToTheHost r r :=
  ⟨rfl, rfl, rfl, rfl, rfl, rfl, rfl, fun _ => rfl, fun _ => rfl⟩

/-- In Active every register counts. -/
theorem eq_of_sameToTheHost_active (h : SameToTheHost r r') (hst : r.st = .active) : r' = r := by
  obtain ⟨hst', hlastFall, hlastRise, houtCode, houtTs, hpending, harmed, hbitIndex, hcodeBits⟩ := h
  cases r
  cases r'
  simp_all

theorem sameToTheHost_setLastFall (h : SameToTheHost r r') (t : BitVec W) :
    SameToTheHost { r with lastFall := t } { r' with lastFall := t } :=
  ⟨h.st, rfl, h.lastRise, h.outCode, h.outTs, h.pending, h.armed, h.bitIndex, h.codeBits⟩

theorem sameToTheHost_setLastRise (h : SameToTheHost r r') (t : BitVec W) :
    SameToTheHost { r with lastRise := t } { r' with lastRise := t } :=
  ⟨h.st, h.lastFall, rfl, h.outCode, h.outTs, h.pending, h.armed, h.bitIndex, h.codeBits⟩

theorem sameToTheHost_arm (h : SameToTheHost r r') :
    SameToTheHost { r with armed := true } { r' with armed := true } :=
  ⟨h.st, h.lastFall, h.lastRise, h.outCode, h.outTs, h.pending, rfl, h.bitIndex, h.codeBits⟩

theorem sameToTheHost_dropPending (h : SameToTheHost r r') (clear : Bool) :
    SameToTheHost (r.dropPending clear) (r'.dropPending clear) :=
  ⟨h.st, h.lastFall, h.lastRise, h.outCode, h.outTs, congrArg (!clear && ·) h.pending, h.armed, h.bitIndex,
    h.codeBits⟩

/-- In a state other than PreambleWait and Active neither part of the accumulator counts. -/
theorem sameToTheHost_setState (h : SameToTheHost r r') {st : DecoderState} (hp : st ≠ .preambleWait)
    (ha : st ≠ .active) : SameToTheHost { r with st := st } { r' with st := st } :=
  ⟨rfl, h.lastFall, h.lastRise, h.outCode, h.outTs, h.pending, h.armed, fun hst => (hst.elim hp ha).elim,
    fun hst => (ha hst).elim⟩

theorem sameToTheHost_enterError (h : SameToTheHost r r') (clear : Bool) :
    SameToTheHost (r.enterError clear) (r'.enterError clear) :=
  sameToTheHost_setState (sameToTheHost_dropPending h clear) nofun nofun

theorem sameToTheHost_enterRepeat (h : SameToTheHost r r') (clear : Bool) :
    SameToTheHost (r.enterRepeat clear) (r'.enterRepeat clear) :=
  sameToTheHost_setState (sameToTheHost_dropPending h clear) nofun nofun

/-- A start pulse writes `bitIndex`, which counts from then on; `codeBits` does not count yet (R81). -/
theorem sameToTheHost_startFrame (h : SameToTheHost r r') : SameToTheHost r.startFrame r'.startFrame :=
  ⟨rfl, h.lastFall, h.lastRise, h.outCode, h.outTs, h.pending, h.armed, fun _ => rfl, nofun⟩

/-- The entry to Active writes `codeBits`, which counts from then on; `bitIndex` already counts (R83). -/
theorem sameToTheHost_startBits (h : SameToTheHost r r') (hst : r.st = .preambleWait) :
    SameToTheHost r.startBits r'.startBits :=
  ⟨rfl, h.lastFall, h.lastRise, h.outCode, h.outTs, h.pending, h.armed, fun _ => h.bitIndex (.inl hst), fun _ => rfl⟩

/-- The state machine reads and completes the accumulator in Active only, and starts it where it begins to count. -/
theorem sameToTheHost_fsmStep (h : SameToTheHost r r') (c : Config.Params) (cls : EdgeClass) (t : BitVec W) :
    SameToTheHost (fsmStep c cls t r) (fsmStep c cls t r') := by
  by_cases hactive : r.st = .active
  · rw [eq_of_sameToTheHost_active h hactive]
    exact sameToTheHost_refl _
  cases cls with
  | startPulse => exact sameToTheHost_startFrame h
  | pulseMalformed => exact sameToTheHost_enterError h true
  | markIgnored => exact h
  | dataShort | dataLong => simpa only [fsmStep, h.st, if_neg hactive] using h
  | gapPreambleNormal =>
    simp only [fsmStep, h.st]
    split_ifs with hst
    · exact sameToTheHost_startBits h hst
    · exact h
  | gapPreambleRepeat =>
    simp only [fsmStep, h.st]
    split_ifs
    · exact sameToTheHost_enterRepeat h _
    · exact h
  | gapOther =>
    cases hst : r.st with
    | active => exact absurd hst hactive
    | idle | repeatFrame | complete | error => simpa only [fsmStep, h.st, hst] using h
    | preambleWait =>
      simp only [fsmStep, h.st, hst]
      cases c.preambleGapOther with
      | noOp => exact h
      | error => exact sameToTheHost_enterError h _

theorem sameToTheHost_edgeFall (h : SameToTheHost r r') (t : BitVec W) :
    SameToTheHost (edgeFall t r) (edgeFall t r') := by
  cases harmed : r.armed with
  | false =>
    rw [edgeFall_unarmed t harmed, edgeFall_unarmed t (h.armed.trans harmed)]
    exact h
  | true =>
    rw [edgeFall, edgeFall, if_pos harmed, if_pos (h.armed.trans harmed)]
    exact sameToTheHost_setLastFall h t

/-- Both edges have the same class: it is computed from the edge timestamps and `st` (R67, R68). -/
theorem classAt_of_sameToTheHost (h : SameToTheHost r r') (c : Config.Params) (t : BitVec W) :
    r'.classAt c t = r.classAt c t := by
  simp only [Regs.classAt, Regs.mark, Regs.cell, h.st, h.lastFall, h.lastRise]

theorem sameToTheHost_edgeRise (h : SameToTheHost r r') (c : Config.Params) (t : BitVec W) :
    SameToTheHost (edgeRise c t r) (edgeRise c t r') := by
  cases harmed : r.armed with
  | false =>
    rw [edgeRise_unarmed c t r harmed, edgeRise_unarmed c t r' (h.armed.trans harmed)]
    exact h
  | true =>
    rw [edgeRise_of_armed c t r harmed, edgeRise_of_armed c t r' (h.armed.trans harmed), classAt_of_sameToTheHost h]
    exact sameToTheHost_fsmStep (sameToTheHost_setLastRise h t) c _ t

theorem takeable_of_sameToTheHost (h : SameToTheHost r r') (c : Config.Params) : r'.takeable c = r.takeable c := by
  simp only [Regs.takeable, h.pending, h.st]

theorem sameToTheHost_takeCode (h : SameToTheHost r r') (c : Config.Params) :
    SameToTheHost (takeCode c r) (takeCode c r') := by
  rw [takeCode, takeCode, takeable_of_sameToTheHost h]
  exact sameToTheHost_dropPending h _

end

section
variable {r r' : Regs Config.tsWidth}

theorem sameToTheHost_regsAfter (h : SameToTheHost r r') (i : Instr) :
    SameToTheHost (regsAfter i r) (regsAfter i r') := by
  cases i with
  | nop | getState => exact h
  | edgeFall t => exact sameToTheHost_edgeFall h t
  | edgeRise t => exact sameToTheHost_edgeRise h Config.params t
  | init => exact sameToTheHost_arm h
  | takeCode => exact sameToTheHost_takeCode h Config.params

/-- No operation responds with the accumulator. -/
theorem responseOf_of_sameToTheHost (h : SameToTheHost r r') (i : Instr) : responseOf i r' = responseOf i r := by
  cases i with
  | nop | edgeFall | edgeRise | init => rfl
  | getState => simp only [responseOf, h.st]
  | takeCode => simp only [responseOf, takeResponse, takeable_of_sameToTheHost h, h.outCode, h.outTs]

end

/-! ### The accumulator outside a frame: steps (R94) -/

/-- The same response and inputs beside other registers. -/
def withRegs (s : State) (r : Regs Config.tsWidth) : State := { s with regs := r }

@[simp] theorem withRegs_regs (s : State) (r : Regs Config.tsWidth) : (withRegs s r).regs = r := rfl

/-- Two outcomes the host cannot tell apart: states with the same response and inputs whose registers are the same to
the host, or the same refusal. -/
inductive AlikeOutcomes : Host.Outcome State Fault Refusal → Host.Outcome State Fault Refusal → Prop where
  | next {t : State} {r : Regs Config.tsWidth} (h : SameToTheHost t.regs r) :
      AlikeOutcomes (.next t) (.next (withRegs t r))
  | refused (why : Refusal) : AlikeOutcomes (.refused why) (.refused why)

theorem AlikeOutcomes.of_next {t : State} {o : Host.Outcome State Fault Refusal} (h : AlikeOutcomes (.next t) o) :
    ∃ u, o = .next (withRegs t u) ∧ SameToTheHost t.regs u := by
  cases h with
  | next h => exact ⟨_, rfl, h⟩

theorem AlikeOutcomes.of_refused {why : Refusal} {o : Host.Outcome State Fault Refusal}
    (h : AlikeOutcomes (.refused why) o) : o = .refused why := by
  cases h with
  | refused => rfl

section
variable {s : State} {r : Regs Config.tsWidth}

theorem exec_alike (h : SameToTheHost s.regs r) (i : Instr) : AlikeOutcomes (exec i s) (exec i (withRegs s r)) := by
  rw [exec_eq, exec_eq, withRegs_regs, responseOf_of_sameToTheHost h]
  exact .next (sameToTheHost_regsAfter h i)

theorem perform_alike (h : SameToTheHost s.regs r) (q : Request) :
    AlikeOutcomes (perform q s) (perform q (withRegs s r)) := by
  cases q with
  | reservedHostOp => exact .refused .reservedHostOp
  | word w =>
    cases hd : decodeWord w with
    | ok i =>
      rw [perform_word hd, perform_word hd]
      exact exec_alike h i
    | error why =>
      rw [perform_reserved hd, perform_reserved hd]
      exact .refused (.reservedWord why)

theorem performNext_alike (h : SameToTheHost s.regs r) :
    AlikeOutcomes (performNext s) (performNext (withRegs s r)) := by
  cases hw : s.waiting with
  | nil =>
    rw [performNext_nil hw, performNext_nil (s := withRegs s r) hw]
    exact exec_alike h .nop
  | cons q qs =>
    rw [performNext_cons hw, performNext_cons (s := withRegs s r) hw]
    exact perform_alike (s := { s with waiting := qs }) h q

/-- A step reads its request from the inputs, which are the same, and a reset cycle reads no register. -/
theorem step_alike (h : SameToTheHost s.regs r) : AlikeOutcomes (step s) (step (withRegs s r)) := by
  cases hw : s.waiting with
  | cons q qs =>
    rw [step_waiting hw, step_waiting (s := withRegs s r) hw]
    exact perform_alike (s := { s with waiting := qs }) h q
  | nil =>
    cases hc : s.cycles with
    | nil =>
      rw [step_idle hw hc, step_idle (s := withRegs s r) hw hc]
      exact exec_alike h .nop
    | cons p ps =>
      rw [step_cycle hw hc, step_cycle (s := withRegs s r) hw hc]
      split_ifs
      · exact .next (sameToTheHost_refl (Regs.reset Config.params))
      · exact performNext_alike (s := s.sample p ps) h

end

/-- Settles O48: from register values that are the same to the host, the two steps have alike outcomes. -/
theorem staleAccumulatorIsUnobservable : Obligations.StaleAccumulatorIsUnobservable := by
  intro s r h
  have halike : AlikeOutcomes (step s) (step (withRegs s r)) := step_alike h
  constructor
  · intro t ht
    rw [ht] at halike
    exact halike.of_next
  · intro why hwhy
    rw [hwhy] at halike
    exact halike.of_refused

end Sys2Proof.Proofs.FrameStateMachine
end

section
/-! PROOFS. The statements of 42_frame_validator.md: the properties of the check (R98), and what reaches the output
register (R96, R97, R99). -/
namespace Sys2Proof.Proofs.FrameValidator

open Sys2Proof.Machine Sys2Proof.Proofs.Registers

/-! ### The byte form of the check (R95, R98) -/

/-- A field is the complement of another one exactly if each of its bits is. -/
theorem extractLsb'_eq_not_iff {w : Nat} (x : BitVec w) (i j n : Nat) :
    x.extractLsb' i n = ~~~(x.extractLsb' j n) ↔ ∀ k < n, x.getLsbD (i + k) = !x.getLsbD (j + k) := by
  rw [BitVec.eq_of_getLsbD_eq_iff]
  refine forall₂_congr fun k hk => ?_
  simp [hk]

theorem codeOk_iff_bytes (code : BitVec 32) : codeOk code = true ↔
    code.extractLsb' 0 8 = ~~~(code.extractLsb' 8 8) ∧ code.extractLsb' 16 8 = ~~~(code.extractLsb' 24 8) := by
  simp only [codeOk_iff_bits, extractLsb'_eq_not_iff, Nat.zero_add, ← forall_and]

/-- The four bytes of a code, read from the code they were put together to. -/
theorem extractLsb'_append_bytes (b3 b2 b1 b0 : BitVec 8) :
    (b3 ++ b2 ++ b1 ++ b0).extractLsb' 24 8 = b3 ∧ (b3 ++ b2 ++ b1 ++ b0).extractLsb' 16 8 = b2 ∧
      (b3 ++ b2 ++ b1 ++ b0).extractLsb' 8 8 = b1 ∧ (b3 ++ b2 ++ b1 ++ b0).extractLsb' 0 8 = b0 := by
  refine ⟨?_, ?_, ?_, BitVec.extractLsb'_append_eq_right⟩
  · rw [BitVec.extractLsb'_append_eq_of_le (by decide), BitVec.extractLsb'_append_eq_of_le (by decide)]
    exact BitVec.extractLsb'_append_eq_left
  · rw [BitVec.extractLsb'_append_eq_of_le (by decide), BitVec.extractLsb'_append_eq_of_le (by decide)]
    exact BitVec.extractLsb'_append_eq_right
  · rw [BitVec.extractLsb'_append_eq_of_le (by decide)]
    exact BitVec.extractLsb'_append_eq_right

theorem append_bytes (code : BitVec 32) :
    code.extractLsb' 24 8 ++ code.extractLsb' 16 8 ++ code.extractLsb' 8 8 ++ code.extractLsb' 0 8 = code := by
  have hhigh : code.extractLsb' 24 8 ++ code.extractLsb' 16 8 = code.extractLsb' 16 16 :=
    BitVec.extractLsb'_append_extractLsb'_eq_extractLsb' rfl
  have hupper : code.extractLsb' 16 16 ++ code.extractLsb' 8 8 = code.extractLsb' 8 24 :=
    BitVec.extractLsb'_append_extractLsb'_eq_extractLsb' rfl
  rw [hhigh, hupper]
  exact BitVec.extractLsb'_append_extractLsb'

/-- A code is given by its four bytes. -/
theorem eq_append_bytes_iff (code : BitVec 32) (b3 b2 b1 b0 : BitVec 8) : code = b3 ++ b2 ++ b1 ++ b0 ↔
    code.extractLsb' 24 8 = b3 ∧ code.extractLsb' 16 8 = b2 ∧ code.extractLsb' 8 8 = b1 ∧
      code.extractLsb' 0 8 = b0 := by
  constructor
  · rintro rfl
    exact extractLsb'_append_bytes b3 b2 b1 b0
  · rintro ⟨rfl, rfl, rfl, rfl⟩
    exact (append_bytes code).symm

/-- A passing code is fixed by B0 and B2. -/
theorem codeOk_iff_exists_bytes (code : BitVec 32) :
    codeOk code = true ↔ ∃ b0 b2 : BitVec 8, code = ~~~b2 ++ b2 ++ ~~~b0 ++ b0 := by
  simp only [codeOk_iff_bytes, eq_append_bytes_iff]
  constructor
  · rintro ⟨hlow, hhigh⟩
    exact ⟨_, _, by rw [hhigh, BitVec.not_not], rfl, by rw [hlow, BitVec.not_not], rfl⟩
  · rintro ⟨b0, b2, h3, h2, h1, h0⟩
    rw [h0, h1, h2, h3, BitVec.not_not, BitVec.not_not]
    exact ⟨rfl, rfl⟩

/-- B0 and B2 are free: no two choices of them give the same code. -/
theorem bytes_eq_of_append_eq {b0 b2 c0 c2 : BitVec 8}
    (h : ~~~b2 ++ b2 ++ ~~~b0 ++ b0 = ~~~c2 ++ c2 ++ ~~~c0 ++ c0) : b0 = c0 ∧ b2 = c2 := by
  obtain ⟨_, hb2, _, hb0⟩ := extractLsb'_append_bytes (~~~b2) b2 (~~~b0) b0
  obtain ⟨_, hc2, _, hc0⟩ := (eq_append_bytes_iff _ _ _ _ _).mp h
  exact ⟨hb0.symm.trans hc0, hb2.symm.trans hc2⟩

/-! ### A flipped bit (R98) -/

/-- The check compares every bit with one other bit, the same bit of the other byte of its pair. -/
theorem exists_pairedBit {i : Nat} (hi : i < 32) :
    ∃ j, j ≠ i ∧ ∀ code, codeOk code = true → code.getLsbD j = !code.getLsbD i := by
  obtain ⟨k, hk, hbyte⟩ : ∃ k < 8, i = k ∨ i = 8 + k ∨ i = 16 + k ∨ i = 24 + k :=
    ⟨i % 8, Nat.mod_lt i (by decide), by omega⟩
  have hpairs := fun code h => (codeOk_iff_bits code).mp h k hk
  rcases hbyte with rfl | rfl | rfl | rfl
  · exact ⟨8 + i, by omega, fun code h => by rw [(hpairs code h).1, Bool.not_not]⟩
  · exact ⟨k, by omega, fun code h => (hpairs code h).1⟩
  · exact ⟨24 + k, by omega, fun code h => by rw [(hpairs code h).2, Bool.not_not]⟩
  · exact ⟨16 + k, by omega, fun code h => (hpairs code h).2⟩

theorem getLsbD_flip (code : BitVec 32) {i : Nat} (hi : i < 32) (j : Nat) :
    (code ^^^ (1#32 <<< i)).getLsbD j = (code.getLsbD j ^^ decide (i = j)) := by
  rw [BitVec.getLsbD_xor, ← BitVec.twoPow_eq, BitVec.getLsbD_twoPow]
  simp [hi]

/-- The flip changes bit `i` and not the bit it is compared with. -/
theorem codeOk_flip {code : BitVec 32} (h : codeOk code = true) {i : Nat} (hi : i < 32) :
    codeOk (code ^^^ (1#32 <<< i)) = false := by
  obtain ⟨j, hj, hpair⟩ := exists_pairedBit hi
  refine Bool.eq_false_iff.mpr fun hflip => ?_
  have hpair' := hpair _ hflip
  rw [getLsbD_flip code hi, getLsbD_flip code hi, hpair code h] at hpair'
  simp [hj.symm] at hpair'

/-- Settles O34: both forms compare the two pairs of bytes bit by bit, and a flipped bit no longer complements the bit
it is compared with. -/
theorem complementCheckIsTheByteForm : Obligations.ComplementCheckIsTheByteForm :=
  ⟨codeOk_iff_bytes, codeOk_iff_exists_bytes, fun _ _ _ _ => bytes_eq_of_append_eq,
    fun _ _ hi h => codeOk_flip h hi⟩

/-! ### What reaches the output register (R96, R97, R99) -/

/-- Of all transitions, only a successful validation writes the output register. -/
theorem published_of_output_ne {W : Nat} {c : Config.Params} {t : BitVec W} {r r' : Regs W}
    (h : Transition c t r r') (hne : r'.outCode ≠ r.outCode ∨ r'.outTs ≠ r.outTs) :
    codeOk r'.outCode = true ∧ r'.codeBits = r'.outCode ∧ r'.outTs = t ∧ r'.pending = true ∧ r'.st = .complete ∧
      r'.bitIndex = 32 ∧ r.st = .active := by
  cases h with
  | publish _ hst hidx hok => exact ⟨hok, rfl, rfl, rfl, rfl, hidx, hst⟩
  | stay | startFrame | malformed | startBits | enterRepeat | wrongGap | takeBit | reject => simp at hne

/-- Settles O43: EDGE_RISE is a transition from registers with the same output register and state. -/
theorem onlyCheckedCodesArePublished : Obligations.OnlyCheckedCodesArePublished := by
  intro W c t r hne
  obtain ⟨rise, h⟩ := edgeRise_transition c t r
  exact published_of_output_ne h (r := { r with lastRise := rise }) hne

end Sys2Proof.Proofs.FrameValidator
end

section
/-! PROOFS. The statements of 43_polling_facade.md: NOP and the host operations one by one (R100 to R103), what they
leave alone (R105), the registers before INIT (R105), and that a code is taken at most once (R104). -/
namespace Sys2Proof.Proofs.PollingFacade

open Sys2Proof.Machine Sys2Proof.Safety Sys2Proof.Proofs.Registers Sys2Proof.Proofs.Encoding
  Sys2Proof.Proofs.EdgeClassifier

/-! ### The registers before INIT (R105) -/

theorem unarmedAtReset_reset : UnarmedAtReset (Regs.reset Config.params) := fun _ => rfl

/-- Registers that are armed meet the invariant whatever they hold. -/
theorem unarmedAtReset_of_armed {r : Regs Config.tsWidth} (h : r.armed = true) : UnarmedAtReset r := by
  simp [UnarmedAtReset, h]

/-- INIT arms; every other operation keeps registers that are armed armed and changes no register before INIT. -/
theorem unarmedAtReset_regsAfter {r : Regs Config.tsWidth} (h : UnarmedAtReset r) (i : Instr) :
    UnarmedAtReset (regsAfter i r) := by
  by_cases hi : i = .init
  · exact unarmedAtReset_of_armed (by rw [hi]; rfl)
  · cases harmed : r.armed with
    | true => exact unarmedAtReset_of_armed (regsAfter_armed harmed)
    | false =>
      have hpending : r.pending = false := by rw [h harmed, Regs.reset_pending]
      rwa [regsAfter_unarmed harmed hpending hi]

/-- Settles O53: a step is a reset cycle or one operation, and both keep the invariant. -/
theorem everyStepKeepsTheUnarmedRegistersAtReset : Obligations.EveryStepKeepsTheUnarmedRegistersAtReset := by
  intro s s' h hs
  rcases step_regs hs with ⟨_, _, _, _, _, hr⟩ | ⟨i, hr⟩ <;> rw [hr]
  · exact unarmedAtReset_reset
  · exact unarmedAtReset_regsAfter h i

/-- Settles O52. -/
theorem resetMeetsTheUnarmedInvariant : Obligations.ResetMeetsTheUnarmedInvariant := unarmedAtReset_reset

/-! ### TAKE_CODE (R103) -/

/-- TAKE_CODE writes `pending` and nothing else. -/
theorem takeCode_eq (r : Regs Config.tsWidth) : takeCode Config.params r = { r with pending := false } := by
  rw [← takeCode_pending r]
  rfl

theorem takeCode_of_not_pending {r : Regs Config.tsWidth} (h : r.pending = false) :
    takeCode Config.params r = r :=
  Regs.dropPending_of_not_pending h _

theorem takeResponse_of_not_pending {r : Regs Config.tsWidth} (h : r.pending = false) :
    takeResponse Config.params r = .take false 0 0 := by
  simp [takeResponse_eq, h]

/-- `V` of TAKE_CODE's response is `pending`. -/
theorem takeResponse_rspV (r : Regs Config.tsWidth) : (takeResponse Config.params r).rspV = some r.pending := by
  rw [takeResponse_eq]
  rfl

/-- With nothing pending TAKE_CODE returns nothing and writes no register. -/
theorem exec_takeCode_of_not_pending {s : State} (h : s.regs.pending = false) :
    exec .takeCode s = .next { s with rsp := .take false 0 0 } := by
  rw [exec_eq, regsAfter, responseOf, takeCode_of_not_pending h, takeResponse_of_not_pending h]
  rfl

/-- With a code pending TAKE_CODE returns and consumes it. -/
theorem exec_takeCode_of_pending {s : State} (h : s.regs.pending = true) :
    exec .takeCode s = .next
      { s with regs := { s.regs with pending := false }, rsp := .take true s.regs.outCode s.regs.outTs } := by
  rw [exec_eq, regsAfter, responseOf, takeCode_eq, takeResponse_of_pending h]
  rfl

/-- Settles O16: the two arms of R103; in Idle, Repeat and Error R33 (d) gives the second one. -/
theorem takeCodeReturnsAndConsumes : Obligations.TakeCodeReturnsAndConsumes :=
  ⟨fun _ => exec_takeCode_of_pending, fun _ => exec_takeCode_of_not_pending,
    fun _ hinv hst => exec_takeCode_of_not_pending (hinv.quiet_states hst)⟩

/-! ### A code is taken at most once (R104) -/

/-- Only a rising edge sets `pending` (R29), so operations without one keep it clear. -/
theorem regsAfter_not_pending {i : Instr} {r : Regs Config.tsWidth} (hi : ∀ t, i ≠ .edgeRise t)
    (hp : r.pending = false) : (regsAfter i r).pending = false := by
  by_contra hne
  obtain ⟨t, hedge, _⟩ := regsAfter_pending_set hp (Bool.eq_true_of_not_eq_false hne)
  exact hi t hedge

theorem execAll_not_pending {is : List Instr} (his : ∀ i ∈ is, ∀ t, i ≠ .edgeRise t) {s : State}
    (hp : s.regs.pending = false) : ∃ t, execAll is s = .next t ∧ t.regs.pending = false := by
  induction is generalizing s with
  | nil => exact ⟨s, rfl, hp⟩
  | cons i is ih =>
    obtain ⟨hi, his⟩ := List.forall_mem_cons.mp his
    rw [execAll_cons]
    exact ih his (regsAfter_not_pending hi hp)

/-- Settles O17: the first TAKE_CODE leaves nothing pending, and no host operation sets `pending`. -/
theorem secondTakeReturnsNone : Obligations.SecondTakeReturnsNone := by
  intro s between hbetween
  have hedge : ∀ i ∈ between, ∀ t, i ≠ .edgeRise t := by
    rintro i hi t rfl
    simpa using hbetween _ hi
  rw [List.cons_append, execAll_cons]
  obtain ⟨t, ht, hp⟩ := execAll_not_pending hedge
    (s := s.finish (regsAfter .takeCode s.regs) (responseOf .takeCode s.regs)) (takeCode_pending s.regs)
  rw [execAll_append _ _ _ _ ht, execAll_cons]
  exact ⟨_, rfl, (takeResponse_rspV t.regs).trans (congrArg some hp)⟩

/-- After `necframe` a code that passes the check is pending with the timestamp of the last rising edge, and
after one that fails nothing is. -/
theorem execAll_necframe {s : State} (harmed : s.regs.armed = true) (t : Timestamp) (code : Code) :
    ∃ u, execAll (necframeOps t code) s = .next u ∧
      u.regs.st = (if codeOk code then .complete else .error) ∧ u.regs.pending = codeOk code ∧
      (codeOk code = true → u.regs.outCode = code ∧ u.regs.outTs = u.regs.lastRise) := by
  obtain ⟨p, ms, hops, hmarked, hnormal, htimed, hbits, _⟩ := necframeMacroIsWellTimed t code
  have hlen : ms.length = 32 := by
    rw [← List.length_map (f := DataMark.bit), hbits, sentBits, List.length_map, List.length_range]
  obtain ⟨last, hlast⟩ : ∃ last, ms.getLast? = some last :=
    ⟨_, List.getLast?_eq_some_getLast (List.ne_nil_of_length_eq_add_one hlen)⟩
  rw [hops]
  exact ⟨_, wellTimedFrameDeliversItsCode s p ms last code harmed hmarked hnormal htimed hlen hlast hbits, rfl, rfl,
    fun hok => ⟨if_pos hok, if_pos hok⟩⟩

/-- Settles O47: the frame leaves its code pending exactly if it passes the check, and a TAKE_CODE leaves nothing
pending. -/
theorem necframeIsTakenExactlyOnce : Obligations.NecframeIsTakenExactlyOnce := by
  intro s t code harmed
  obtain ⟨u, hu, hst, hpending, hout⟩ := execAll_necframe harmed t code
  refine ⟨u, _, _, hu, exec_eq _ u, exec_eq _ _, hst, fun hok => ?_, fun hbad => ?_, ?_⟩
  · obtain ⟨hcode, hts⟩ := hout hok
    rw [← hts, ← hcode]
    exact takeResponse_of_pending (hpending.trans hok)
  · exact (takeResponse_rspV u.regs).trans (by rw [hpending, hbad])
  · exact (takeResponse_rspV _).trans (congrArg some (takeCode_pending u.regs))

/-! ### NOP, INIT and GET_STATE (R100 to R102) -/

/-- Settles O13. -/
theorem nopChangesNoRegister : Obligations.NopChangesNoRegister := exec_eq .nop

/-- Armed registers are not changed by arming. -/
theorem regsAfter_init_of_armed {r : Regs Config.tsWidth} (h : r.armed = true) : regsAfter .init r = r := by
  rw [regsAfter, ← h]

/-- Settles O14: INIT writes `armed`, which a second INIT finds at 1 already. -/
theorem initArmsAndIsIdempotent : Obligations.InitArmsAndIsIdempotent := by
  intro s
  refine ⟨exec_eq .init s, fun harmed => ?_⟩
  rw [exec_eq, regsAfter_init_of_armed harmed]
  rfl

/-- Settles O15: one code of R59 for each state. -/
theorem getStateReturnsTheStateCode : Obligations.GetStateReturnsTheStateCode := by
  intro s
  refine ⟨s.regs.st.code, exec_eq .getState s, ?_⟩
  cases s.regs.st <;> rfl

/-! ### What the host operations leave alone (R105) -/

/-- A host operation writes at most `pending` and `armed`, and each of the two by one operation only. -/
theorem regsAfter_host {i : Instr} (hi : i ∈ [.init, .getState, .takeCode]) (r : Regs Config.tsWidth) :
    ∃ pending armed, regsAfter i r = { r with pending := pending, armed := armed } ∧
      (i ≠ .takeCode → pending = r.pending) ∧ (i ≠ .init → armed = r.armed) := by
  cases i with
  | init => exact ⟨r.pending, true, rfl, fun _ => rfl, absurd rfl⟩
  | getState => exact ⟨r.pending, r.armed, rfl, fun _ => rfl, fun _ => rfl⟩
  | takeCode => exact ⟨false, r.armed, takeCode_eq r, absurd rfl, fun _ => rfl⟩
  | nop | edgeFall | edgeRise => simp at hi

/-- Settles O19: the frame of the host operations; before INIT the registers are those of a reset, in Idle with nothing
pending. -/
theorem hostOperationsLeaveTheDecoderAlone : Obligations.HostOperationsLeaveTheDecoderAlone := by
  constructor
  · intro s i hi
    obtain ⟨_, _, hr, hpending, harmed⟩ := regsAfter_host hi s.regs
    refine ⟨_, exec_eq i s, ?_⟩
    rw [State.finish_regs, hr]
    exact ⟨rfl, rfl, rfl, rfl, rfl, rfl, rfl, hpending, harmed, rfl, rfl, rfl⟩
  · intro s h harmed
    have hreset : s.regs = Regs.reset Config.params := h harmed
    refine ⟨_, _, exec_eq _ s, ?_, exec_takeCode_of_not_pending (by rw [hreset, Regs.reset_pending]), rfl⟩
    rw [State.finish_rsp, hreset]
    rfl

end Sys2Proof.Proofs.PollingFacade
end

section
/-! PROOFS. The statements of 60_exceptions.md: defined requests never stop the machine (R110), Error, Repeat and
Complete are left only by a start pulse, a malformed pulse or a reset (R117), and a start pulse recovers from every
state (R112). -/
namespace Sys2Proof.Proofs.Exceptions

open Sys2Proof.Machine Sys2Proof.Safety Sys2Proof.Proofs.Registers Sys2Proof.Proofs.Encoding
  Sys2Proof.Proofs.EdgeClassifier

/-! ### Defined requests (R110; 30_encoding.md R56) -/

/-- A defined request performs one operation. -/
theorem perform_of_requestDefined {q : Request} (h : requestDefined q = true) (s : State) :
    ∃ i, perform q s = exec i s := by
  cases q with
  | word w =>
    obtain ⟨i, hi⟩ := (decodeRaw_isOk_iff (fieldsOf w)).mpr h
    exact ⟨i, perform_word hi s⟩
  | reservedHostOp => simp [requestDefined] at h

/-- The word of an operation is defined. -/
theorem requestDefined_encode (i : Instr) : requestDefined (.word (encode i)) = true := by
  rw [requestDefined, fieldsOf_encode]
  exact (decodeRaw_isOk_iff i.raw).mp ⟨i, decodeRaw_raw i⟩

/-- Every value of `host_op` but 11 selects an operation. -/
theorem requestDefined_hostRequest {op : BitVec 2} (h : op ≠ 3) : requestDefined (hostRequest op) = true := by
  have hop : op = 0 ∨ op = 1 ∨ op = 2 := by revert op; decide
  rcases hop with rfl | rfl | rfl
  · exact requestDefined_encode .init
  · exact requestDefined_encode .getState
  · exact requestDefined_encode .takeCode

/-- A well-formed cycle without a reset presents defined requests only, in either order. -/
theorem cycleRequests_defined {p : InPorts} (h : p.wellFormed = true) (hr : p.rst = false) (edgeFirst : Bool) :
    (cycleRequests edgeFirst p).all requestDefined = true := by
  rw [List.all_eq_true]
  intro q hq
  rcases (mem_cycleRequests edgeFirst p q).mp hq with hq | hq
  · cases he : p.edgeValid with
    | false => simp [edgeRequests_of_invalid he] at hq
    | true =>
      rw [edgeRequests_of_valid he, List.mem_singleton] at hq
      rw [hq]
      exact requestDefined_encode _
  · cases hh : p.hostValid with
    | false => simp [hostRequests_of_invalid hh] at hq
    | true =>
      rw [hostRequests_of_valid hh, List.mem_singleton] at hq
      rw [hq]
      exact requestDefined_hostRequest (by simpa [InPorts.wellFormed, hr, hh] using h)

section
variable {s : State}

theorem inputsDefined_iff :
    inputsDefined s = true ↔ s.waiting.all requestDefined = true ∧ s.cycles.all InPorts.wellFormed = true :=
  Bool.and_eq_true_iff

/-- An operation completes and leaves the inputs as they are. -/
theorem exec_inputsDefined (h : inputsDefined s = true) (i : Instr) :
    ∃ t, exec i s = .next t ∧ inputsDefined t = true :=
  ⟨_, exec_eq i s, h⟩

theorem perform_inputsDefined {q : Request} (hq : requestDefined q = true) (h : inputsDefined s = true) :
    ∃ t, perform q s = .next t ∧ inputsDefined t = true := by
  obtain ⟨i, hi⟩ := perform_of_requestDefined hq s
  rw [hi]
  exact exec_inputsDefined h i

theorem performNext_inputsDefined (h : inputsDefined s = true) :
    ∃ t, performNext s = .next t ∧ inputsDefined t = true := by
  cases hw : s.waiting with
  | nil =>
    rw [performNext_nil hw]
    exact exec_inputsDefined h .nop
  | cons q qs =>
    obtain ⟨hwaiting, hcycles⟩ := inputsDefined_iff.mp h
    rw [hw, List.all_cons, Bool.and_eq_true] at hwaiting
    obtain ⟨hq, hqs⟩ := hwaiting
    rw [performNext_cons hw]
    exact perform_inputsDefined hq (inputsDefined_iff.mpr ⟨hqs, hcycles⟩)

/-- Reading a cycle without a reset leaves defined inputs: its requests and the later cycles. -/
theorem sample_inputsDefined {p : InPorts} {ps : List InPorts} (hp : p.wellFormed = true) (hr : p.rst = false)
    (hps : ps.all InPorts.wellFormed = true) : inputsDefined (s.sample p ps) = true :=
  inputsDefined_iff.mpr ⟨cycleRequests_defined hp hr _, hps⟩

end

/-- Settles O7: a step performs a waiting request, reads a cycle or is an empty cycle's NOP, and none of the three
refuses defined inputs. -/
theorem definedInputsNeverStop : Obligations.DefinedInputsNeverStop := by
  intro s h
  cases hw : s.waiting with
  | cons q qs =>
    rw [step_waiting hw, ← performNext_cons hw]
    exact performNext_inputsDefined h
  | nil =>
    cases hc : s.cycles with
    | nil =>
      rw [step_idle hw hc]
      exact exec_inputsDefined h .nop
    | cons p ps =>
      obtain ⟨_, hcycles⟩ := inputsDefined_iff.mp h
      rw [hc, List.all_cons, Bool.and_eq_true] at hcycles
      obtain ⟨hp, hps⟩ := hcycles
      cases hr : p.rst with
      | true => exact ⟨_, step_reset_cycle hw hc hr, inputsDefined_iff.mpr ⟨rfl, hps⟩⟩
      | false =>
        rw [step_sample hw hc hr]
        exact performNext_inputsDefined (sample_inputsDefined hp hr hps)

/-! ### The ways out of Error, Repeat and Complete (R117) -/

/-- Outside PreambleWait and Active the state machine can leave a state only by the two classes of a mark alone. -/
theorem fsmStep_leaves_outside_frame {W : Nat} {c : Config.Params} {cls : EdgeClass} {t : BitVec W} {r : Regs W}
    (hpreamble : r.st ≠ .preambleWait) (hactive : r.st ≠ .active) (hne : (fsmStep c cls t r).st ≠ r.st) :
    (cls = .startPulse ∧ fsmStep c cls t r = r.startFrame) ∨
      (cls = .pulseMalformed ∧ fsmStep c cls t r = r.enterError true) := by
  rcases fsmStep_cases c cls t r with h | h | h | ⟨hst, _⟩ | ⟨hst, _⟩ | ⟨hst, _⟩ | ⟨hst, _⟩
  · exact absurd (congrArg Regs.st h) hne
  · exact .inl h
  · exact .inr h
  · exact absurd hst hpreamble
  · exact absurd hst hpreamble
  · exact absurd hst (not_or_intro hpreamble hactive)
  · exact absurd hst hactive

/-- An operation that leaves Error, Repeat or Complete is a rising edge while armed, of one of the two classes. -/
theorem regsAfter_leaves_terminal {i : Instr} {r : Regs Config.tsWidth}
    (hst : r.st ∈ [DecoderState.error, .repeatFrame, .complete]) (hne : (regsAfter i r).st ≠ r.st) :
    r.armed = true ∧ ∃ t,
      (r.classAt Config.params t = .startPulse ∧ regsAfter i r = Regs.startFrame { r with lastRise := t }) ∨
      (r.classAt Config.params t = .pulseMalformed ∧
        regsAfter i r = Regs.enterError true { r with lastRise := t }) := by
  cases i with
  | nop | edgeFall | init | getState | takeCode => exact absurd (regsAfter_st (by simp)) hne
  | edgeRise t =>
    have hpreamble : r.st ≠ .preambleWait := by intro h; simp [h] at hst
    have hactive : r.st ≠ .active := by intro h; simp [h] at hst
    rcases Bool.eq_false_or_eq_true r.armed with harmed | harmed
    · rw [regsAfter, edgeRise_of_armed _ t r harmed] at hne ⊢
      exact ⟨harmed, t, fsmStep_leaves_outside_frame (r := { r with lastRise := t }) hpreamble hactive hne⟩
    · exact absurd (congrArg Regs.st (edgeRise_unarmed Config.params t r harmed)) hne

/-- Settles O41: a step is a reset or one operation, and R69 says which marks have the two classes that leave a terminal
state. -/
theorem terminalStatesAreLeftOnlyByStartMalformedOrReset :
    Obligations.TerminalStatesAreLeftOnlyByStartMalformedOrReset := by
  intro s s' hs hst hne
  rcases step_regs hs with ⟨hw, p, ps, hc, hrst, hr⟩ | ⟨i, hr⟩
  · exact .inl ⟨by rw [hr, Regs.reset_st], hw, p, ps, hc, hrst⟩
  · rw [hr] at hne ⊢
    obtain ⟨harmed, t, hway⟩ := regsAfter_leaves_terminal hst hne
    obtain ⟨hstart, hmalformed⟩ :=
      malformedMarksAreExactlyThese (s.regs.mark t) (s.regs.cell t) s.regs.st
    rcases hway with ⟨hcls, h⟩ | ⟨hcls, h⟩ <;> rw [h]
    · exact .inr ⟨harmed, harmed, .inl ⟨rfl, hstart.mp hcls⟩⟩
    · exact .inr ⟨harmed, harmed, .inr ⟨rfl, rfl, hmalformed.mp hcls⟩⟩

/-! ### Recovery (R112) -/

/-- Settles O42: the mark of `markOps` lasts `d`, and a start mark begins a frame from every state. -/
theorem startPulseRecoversFromEveryState : Obligations.StartPulseRecoversFromEveryState := by
  intro s t d harmed hlo hhi
  have hmark : t + d - t = d := by rw [BitVec.add_comm, BitVec.add_sub_cancel]
  refine ⟨_, execAll_mark t (t + d) [] s, ?_⟩
  rw [State.finish_regs, regsAfterMark_start harmed (by rw [hmark]; exact ⟨hlo, hhi⟩)]
  exact ⟨rfl, rfl, rfl, rfl, rfl⟩

end Sys2Proof.Proofs.Exceptions
end

section
/-! PROOFS. The statements of 70_reset_and_hazards.md: the reset cycle (R125), and the first rising edge after the boot
sequence (R127, R128). -/
namespace Sys2Proof.Proofs.ResetAndHazards

open Sys2Proof.Machine Sys2Proof.Proofs.Encoding Sys2Proof.Proofs.EdgeClassifier

/-! ### The reset cycle (R125) -/

/-- Settles O2: the state a reset cycle leaves, with the reset values written out. -/
theorem resetCycleReloadsEveryRegister : Obligations.ResetCycleReloadsEveryRegister :=
  fun _ _ _ hw hc hr => step_reset_cycle hw hc hr

/-! ### The first rising edge (R128) -/

/-- In Idle the mark alone decides where a rising edge leads. -/
theorem edgeRise_st_of_idle {r : Regs Config.tsWidth} (harmed : r.armed = true) (hst : r.st = .idle) (t : Timestamp) :
    (edgeRise Config.params t r).st =
      if 8500 < (r.mark t).toNat ∧ (r.mark t).toNat < 9500 then .preambleWait
      else if (r.mark t).toNat < 520 ∨ 700 < (r.mark t).toNat then .error
      else .idle := by
  rw [edgeRise_of_armed _ t r harmed, Regs.classAt, classesFollowTheBands, hst]
  simp only [reduceCtorEq, if_false]
  split_ifs <;> rfl

theorem edgeRise_lastRise_of_armed {r : Regs Config.tsWidth} (harmed : r.armed = true) (t : Timestamp) :
    (edgeRise Config.params t r).lastRise = t := by
  obtain ⟨_, _, hrise⟩ := edgeRise_edgeRecord Config.params t r
  rw [hrise, if_pos harmed]

/-- The registers after the boot sequence, reset and INIT, before any edge (R127). -/
def bootedRegs : Regs Config.tsWidth := { Regs.reset Config.params with armed := true }

theorem exec_init_reset : exec .init State.reset = .next (State.reset.finish bootedRegs .silent) :=
  exec_eq .init State.reset

/-- The reset value of `lastFall` is 0, so the first mark is the raw timestamp. -/
theorem bootedRegs_mark (t : Timestamp) : bootedRegs.mark t = t := BitVec.sub_zero t

/-- Settles O3: INIT leaves the block in Idle, where the first mark, the raw timestamp, decides. -/
theorem firstRisingEdgeIsMeasuredFromZero : Obligations.FirstRisingEdgeIsMeasuredFromZero := by
  intro t
  refine ⟨_, _, exec_init_reset, exec_eq (.edgeRise t) _, edgeRise_lastRise_of_armed rfl t, ?_⟩
  have hst := edgeRise_st_of_idle (r := bootedRegs) rfl rfl t
  rwa [bootedRegs_mark] at hst

end Sys2Proof.Proofs.ResetAndHazards
end

section
/-! PROOFS. The statements of 93_implementation_defined.md: what the values of `pending_policy` (U3) and of
`preamble_gapother` (U2) do in the shared operations. -/
namespace Sys2Proof.Proofs.OpenChoices

open Sys2Proof.Machine

variable {W : Nat}

/-! ### What does not depend on the policy (U3) -/

/-- The parameters with another value of `pending_policy`. -/
def withPolicy (q : Config.PendingPolicy) (c : Config.Params) : Config.Params := { c with pendingPolicy := q }

/-- The registers with another value of `pending`. -/
def withPending (p : Bool) (r : Regs W) : Regs W := { r with pending := p }

/-- The registers but for `pending`. -/
def clearPending (r : Regs W) : Regs W := withPending false r

section
variable (c : Config.Params) (q : Config.PendingPolicy) (t : BitVec W) (r : Regs W) (p : Bool)

theorem acceptBit_clearPending (b : Bool) :
    clearPending (acceptBit (withPolicy q c) b t (withPending p r)) = clearPending (acceptBit c b t r) := by
  simp only [acceptBit, validate, apply_ite clearPending]
  rfl

/-- The state machine does not read `pending`, and its entries to Error and Repeat differ in `pending` alone. -/
theorem fsmStep_clearPending (cls : EdgeClass) :
    clearPending (fsmStep (withPolicy q c) cls t (withPending p r)) = clearPending (fsmStep c cls t r) := by
  have hst : (withPending p r).st = r.st := rfl
  cases cls with
  | startPulse | pulseMalformed | markIgnored => rfl
  | gapPreambleNormal | gapPreambleRepeat => simp only [fsmStep, hst, apply_ite clearPending]; rfl
  | dataShort | dataLong => simp only [fsmStep, hst, apply_ite clearPending, acceptBit_clearPending]; rfl
  | gapOther =>
    have hgap : (withPolicy q c).preambleGapOther = c.preambleGapOther := rfl
    cases h : r.st with
    | preambleWait => simp only [fsmStep, hst, h, hgap]; cases c.preambleGapOther <;> rfl
    | active | idle | repeatFrame | complete | error => simp only [fsmStep, hst, h]; rfl

theorem edgeRise_clearPending :
    clearPending (edgeRise (withPolicy q c) t (withPending p r)) = clearPending (edgeRise c t r) := by
  cases h : r.armed with
  | false => rw [edgeRise_unarmed c t r h, edgeRise_unarmed _ t (withPending p r) h]; rfl
  | true =>
    rw [edgeRise_of_armed c t r h, edgeRise_of_armed _ t (withPending p r) h]
    exact fsmStep_clearPending c q t { r with lastRise := t } p (r.classAt c t)

end

/-- Settles O50: neither the edge's class nor the state machine reads `pending`, and the policy only chooses whether an
entry to Error or Repeat clears it. -/
theorem pendingPolicyTouchesOnlyPending : Obligations.PendingPolicyTouchesOnlyPending :=
  fun _ c q t r p => edgeRise_clearPending c q t r p

/-! ### What each value chooses (U2, U3) -/

section
variable {c : Config.Params} {r : Regs W}

theorem fsmStep_gapOther_error (hc : c.preambleGapOther = .error) (hst : r.st = .preambleWait) (t : BitVec W) :
    fsmStep c .gapOther t r = r.enterError (clearsPending c.pendingPolicy) := by
  simp only [fsmStep, hst, hc]

theorem fsmStep_gapPreambleRepeat (hst : r.st = .preambleWait) (c : Config.Params) (t : BitVec W) :
    fsmStep c .gapPreambleRepeat t r = r.enterRepeat (clearsPending c.pendingPolicy) :=
  if_pos hst

/-- Under D7 (a) a repeat cell enters Repeat with `pending` as it was. -/
theorem fsmStep_repeat_keeps_pending (hc : c.pendingPolicy = .clearOnMalformedOnly) (hst : r.st = .preambleWait)
    (t : BitVec W) : (fsmStep c .gapPreambleRepeat t r).pending = r.pending := by
  have hclear : clearsPending c.pendingPolicy = false := by rw [hc]; rfl
  rw [fsmStep_gapPreambleRepeat hst, hclear, Regs.enterRepeat_pending, Bool.not_false, Bool.true_and]

/-- Under every policy a malformed mark clears `pending` (R82). -/
theorem fsmStep_malformed_pending (c : Config.Params) (t : BitVec W) (r : Regs W) :
    (fsmStep c .pulseMalformed t r).pending = false :=
  rfl

theorem takeResponse_of_not_takeable (h : r.takeable c = false) : takeResponse c r = .take false 0 0 := by
  rw [takeResponse, h, if_neg Bool.false_ne_true]

/-- Under D7 (b) only Complete has a code to take. -/
theorem takeable_outside_complete (hc : c.pendingPolicy = .takeOnlyInComplete) (hst : r.st ≠ .complete) :
    r.takeable c = false := by
  simp [Regs.takeable, hc, hst]

end

/-- Settles O51: a clause for each value that is not the default. -/
theorem parameterValuesChooseTheOpenBehaviour : Obligations.ParameterValuesChooseTheOpenBehaviour := by
  intro W c t r
  refine ⟨fun hc hst => ?_, fun hc hst => ⟨?_, ?_⟩, fun hc hst => ?_⟩
  · rw [fsmStep_gapOther_error hc hst, Regs.enterError_st]
  · exact fsmStep_repeat_keeps_pending hc hst t
  · exact fsmStep_malformed_pending c t r
  · rw [takeResponse_of_not_takeable (takeable_outside_complete hc hst)]
    rfl

end Sys2Proof.Proofs.OpenChoices
end
